-- ==== Sys2Proof/Word.lean ====
section
/-! DEFINITION. The word types of the MPA core: the 64-bit word every bus access and every operand
word is (00_scope.md R9, R10), and the byte lane of an access (20_memory.md R55). -/

namespace Sys2Proof

/-- A 64-bit word: the unit operands are stored in, ARG's width, and the width of a bus access
(00_scope.md R9). -/
abbrev Word := BitVec 64

/-- One byte lane of a 64-bit access (20_memory.md R55). -/
abbrev Byte := BitVec 8

/-- The words of one operand, word 0 (the least significant) first (10_state.md R21). -/
abbrev Words := List Word

end Sys2Proof
end

