-- ==== Sys2Proof/Syntax.lean ====
section
/-! DEFINITION. The commands of the MPA core: one constructor per row of spec/opcode_table.json
(30_encoding.md R84), operands in the order of the command syntax (R96). -/

namespace Sys2Proof

/-- An operand register number, r0 to r7 (10_state.md R20). The numbers 8 to 15 that a register
field can hold name no register: decoding rejects them (30_encoding.md R82, R88). -/
abbrev Reg := Fin 8

/-- A command (00_scope.md R15: the operation selected by a command word). -/
inductive Instr where
  /-- ADD rd, rs1, rs2 (40_adder.md R100). -/
  | add (rd rs1 rs2 : Reg)
  /-- ADDS rd, rs1, ARG implied (40_adder.md R102). -/
  | adds (rd rs1 : Reg)
  /-- SUB rd, rs1, rs2 (40_adder.md R103). -/
  | sub (rd rs1 rs2 : Reg)
  /-- SUBS rd, rs1, ARG implied (40_adder.md R104). -/
  | subs (rd rs1 : Reg)
  /-- MUL rd, rs1, rs2 (41_multiplier.md R120). -/
  | mul (rd rs1 rs2 : Reg)
  /-- DIVREM rq, rr, rs1, rs2 (42_divider.md R132): RD is rq, RD2 is rr. -/
  | divrem (rq rr rs1 rs2 : Reg)
  /-- DIV rd, rs1, rs2 (42_divider.md R133). -/
  | div (rd rs1 rs2 : Reg)
  /-- MOD rd, rs1, rs2 (42_divider.md R134). -/
  | mod (rd rs1 rs2 : Reg)
  /-- POW rd, rs1, rs2 (43_exponentiation.md R151). -/
  | pow (rd rs1 rs2 : Reg)
  /-- POWS rd, rs1, ARG implied (43_exponentiation.md R152). -/
  | pows (rd rs1 : Reg)
  /-- CMP rs1, rs2 (44_primitives.md R160). -/
  | cmp (rs1 rs2 : Reg)
  /-- TSTZ rs1 (44_primitives.md R161). -/
  | tstz (rs1 : Reg)
  /-- TSTO rs1 (44_primitives.md R162). -/
  | tsto (rs1 : Reg)
  /-- NEG rd, rs1 (44_primitives.md R163). -/
  | neg (rd rs1 : Reg)
  /-- NOT rd, rs1 (44_primitives.md R164). -/
  | not (rd rs1 : Reg)
  /-- SHL1 rd, rs1 (44_primitives.md R165). -/
  | shl1 (rd rs1 : Reg)
  /-- SHR1 rd, rs1 (44_primitives.md R166). -/
  | shr1 (rd rs1 : Reg)
  /-- MOV rd, rs1 (45_data_movement.md R180). -/
  | mov (rd rs1 : Reg)
  /-- CLR rd (45_data_movement.md R181). -/
  | clr (rd : Reg)
  deriving DecidableEq, Repr

end Sys2Proof
end

