-- ==== Sys2Proof/WellFormed.lean ====
section
/-! DEFINITION. Which commands a command word can stand for. Register numbers are legal by their
type; the one further condition is 30_encoding.md R89. -/

namespace Sys2Proof

/-- A command is well-formed when some legal word encodes it (30_encoding.md R85): DIVREM's quotient
and remainder go to different registers (R89), and every other command is well-formed. -/
def Instr.wf : Instr → Bool
  | .divrem rq rr _ _ => rq != rr
  | .add _ _ _ | .adds _ _ | .sub _ _ _ | .subs _ _ | .mul _ _ _ | .div _ _ _ | .mod _ _ _
  | .pow _ _ _ | .pows _ _ | .cmp _ _ | .tstz _ | .tsto _ | .neg _ _ | .not _ _ | .shl1 _ _
  | .shr1 _ _ | .mov _ _ | .clr _ => true

end Sys2Proof
end

