-- ==== Sys2Proof/Decode.lean ====
section
/-! DEFINITION. The command word: its fields (30_encoding.md R81), the opcode map (R84), Decode
(R90) and, after it, the encoder (R96). -/

namespace Sys2Proof

/-- OPC, bits 7:0 of a command word (R81). -/
def opcField (v : Word) : BitVec 8 := v.extractLsb' 0 8
/-- RD, bits 11:8 (R81). -/
def rdField (v : Word) : BitVec 4 := v.extractLsb' 8 4
/-- RS1, bits 15:12 (R81). -/
def rs1Field (v : Word) : BitVec 4 := v.extractLsb' 12 4
/-- RS2, bits 19:16 (R81). -/
def rs2Field (v : Word) : BitVec 4 := v.extractLsb' 16 4
/-- RD2, bits 23:20 (R81). -/
def rd2Field (v : Word) : BitVec 4 := v.extractLsb' 20 4
/-- The reserved bits 63:24, which must be 0 (R81, R87). -/
def reservedField (v : Word) : BitVec 40 := v.extractLsb' 24 40

/-- Why a command word is rejected (R86 to R89). -/
inductive Reject where
  /-- ILLOP: OPC is not in the opcode map (R86). -/
  | illop
  /-- ILLFMT: bits 63:24 or an unused register field are not 0 (R87). -/
  | illfmt
  /-- ILLREG: a used register field is 8 or more (R88). -/
  | illreg
  /-- ALIAS: DIVREM with RD = RD2 (R89). -/
  | aliased
  deriving DecidableEq, Repr

/-- The outcome code a rejection writes to STATUS.ERR (60_exceptions.md R201). -/
def Reject.code : Reject → BitVec 4
  | .illop => 2
  | .illfmt => 3
  | .illreg => 4
  | .aliased => 5

/-- What Decode returns (R90). -/
inductive Decoded where
  | accept (i : Instr)
  | reject (r : Reject)
  deriving DecidableEq, Repr

/-- One row of the opcode map (R84): the opcode, which register fields it uses, and the command its
register fields RD, RS1, RS2 and RD2 make. -/
structure OpRow where
  mnemonic : String
  opc : BitVec 8
  usesRd : Bool
  usesRs1 : Bool
  usesRs2 : Bool
  usesRd2 : Bool
  build : Reg → Reg → Reg → Reg → Instr

/-- The opcode map, row for row as R84 lists it. -/
def opMap : List OpRow :=
  [ ⟨"ADD",    0x01, true,  true,  true,  false, fun rd rs1 rs2 _ => .add rd rs1 rs2⟩,
    ⟨"ADDS",   0x02, true,  true,  false, false, fun rd rs1 _ _ => .adds rd rs1⟩,
    ⟨"SUB",    0x03, true,  true,  true,  false, fun rd rs1 rs2 _ => .sub rd rs1 rs2⟩,
    ⟨"SUBS",   0x04, true,  true,  false, false, fun rd rs1 _ _ => .subs rd rs1⟩,
    ⟨"MUL",    0x10, true,  true,  true,  false, fun rd rs1 rs2 _ => .mul rd rs1 rs2⟩,
    ⟨"DIVREM", 0x20, true,  true,  true,  true,  fun rd rs1 rs2 rd2 => .divrem rd rd2 rs1 rs2⟩,
    ⟨"DIV",    0x21, true,  true,  true,  false, fun rd rs1 rs2 _ => .div rd rs1 rs2⟩,
    ⟨"MOD",    0x22, true,  true,  true,  false, fun rd rs1 rs2 _ => .mod rd rs1 rs2⟩,
    ⟨"POW",    0x30, true,  true,  true,  false, fun rd rs1 rs2 _ => .pow rd rs1 rs2⟩,
    ⟨"POWS",   0x31, true,  true,  false, false, fun rd rs1 _ _ => .pows rd rs1⟩,
    ⟨"CMP",    0x40, false, true,  true,  false, fun _ rs1 rs2 _ => .cmp rs1 rs2⟩,
    ⟨"TSTZ",   0x41, false, true,  false, false, fun _ rs1 _ _ => .tstz rs1⟩,
    ⟨"TSTO",   0x42, false, true,  false, false, fun _ rs1 _ _ => .tsto rs1⟩,
    ⟨"NEG",    0x43, true,  true,  false, false, fun rd rs1 _ _ => .neg rd rs1⟩,
    ⟨"NOT",    0x44, true,  true,  false, false, fun rd rs1 _ _ => .not rd rs1⟩,
    ⟨"SHL1",   0x45, true,  true,  false, false, fun rd rs1 _ _ => .shl1 rd rs1⟩,
    ⟨"SHR1",   0x46, true,  true,  false, false, fun rd rs1 _ _ => .shr1 rd rs1⟩,
    ⟨"MOV",    0x50, true,  true,  false, false, fun rd rs1 _ _ => .mov rd rs1⟩,
    ⟨"CLR",    0x51, true,  false, false, false, fun rd _ _ _ => .clr rd⟩ ]

/-- Some register field the opcode does not use is not 0 (R87). -/
def unusedFieldSet (row : OpRow) (v : Word) : Bool :=
  (!row.usesRd && rdField v != 0) || (!row.usesRs1 && rs1Field v != 0) ||
  (!row.usesRs2 && rs2Field v != 0) || (!row.usesRd2 && rd2Field v != 0)

/-- Some register field the opcode uses is 8 or more (R88). -/
def usedFieldTooLarge (row : OpRow) (v : Word) : Bool :=
  (row.usesRd && decide (8 ≤ (rdField v).toNat)) || (row.usesRs1 && decide (8 ≤ (rs1Field v).toNat)) ||
  (row.usesRs2 && decide (8 ≤ (rs2Field v).toNat)) || (row.usesRd2 && decide (8 ≤ (rd2Field v).toNat))

/-- The register a field names. Decode asks only for a field that is below 8, or unused and 0
(R82, R90). -/
def regOfField (f : BitVec 4) : Reg := ⟨f.toNat % 8, Nat.mod_lt _ (by decide)⟩

/-- Decode(v), with its checks in R90's order: ILLOP, ILLFMT for bits 63:24, ILLFMT for an unused
field, ILLREG, ALIAS. It depends on the word alone (R91). -/
def decode (v : Word) : Decoded :=
  match opMap.find? (fun row => row.opc == opcField v) with
  | none => .reject .illop
  | some row =>
    if reservedField v ≠ 0 then .reject .illfmt
    else if unusedFieldSet row v then .reject .illfmt
    else if usedFieldTooLarge row v then .reject .illreg
    else if row.opc = 0x20 ∧ rdField v = rd2Field v then .reject .aliased
    else .accept
      (row.build (regOfField (rdField v)) (regOfField (rs1Field v)) (regOfField (rs2Field v))
        (regOfField (rd2Field v)))

/-- The command that `nbits` bits numbered as spec/opcode_table.json numbers them stand for. A row has
one 64-bit word (R80), written to CMD in one access whose lanes are little-endian (20_memory.md R55),
so the table's bit numbers are the word's. -/
def decodeTableWord (nbits w : Nat) : Option Instr :=
  match decode (BitVec.ofNat 64 (w % 2 ^ nbits)) with
  | .accept i => some i
  | .reject _ => none

/-- A register number as a 4-bit field (R82). -/
def fieldOfReg (r : Reg) : BitVec 4 := BitVec.ofNat 4 r.val

/-- The word with the given opcode and register fields, and bits 63:24 zero (R81, R96). -/
def wordOfFields (opc : BitVec 8) (rd rs1 rs2 rd2 : BitVec 4) : Word :=
  0#40 ++ rd2 ++ rs2 ++ rs1 ++ rd ++ opc

/-- The command word of a command (R96): the fields its opcode uses hold its registers, every other
field holds 0 (R87). -/
def encode : Instr → Word
  | .add rd rs1 rs2 => wordOfFields 0x01 (fieldOfReg rd) (fieldOfReg rs1) (fieldOfReg rs2) 0
  | .adds rd rs1 => wordOfFields 0x02 (fieldOfReg rd) (fieldOfReg rs1) 0 0
  | .sub rd rs1 rs2 => wordOfFields 0x03 (fieldOfReg rd) (fieldOfReg rs1) (fieldOfReg rs2) 0
  | .subs rd rs1 => wordOfFields 0x04 (fieldOfReg rd) (fieldOfReg rs1) 0 0
  | .mul rd rs1 rs2 => wordOfFields 0x10 (fieldOfReg rd) (fieldOfReg rs1) (fieldOfReg rs2) 0
  | .divrem rq rr rs1 rs2 =>
    wordOfFields 0x20 (fieldOfReg rq) (fieldOfReg rs1) (fieldOfReg rs2) (fieldOfReg rr)
  | .div rd rs1 rs2 => wordOfFields 0x21 (fieldOfReg rd) (fieldOfReg rs1) (fieldOfReg rs2) 0
  | .mod rd rs1 rs2 => wordOfFields 0x22 (fieldOfReg rd) (fieldOfReg rs1) (fieldOfReg rs2) 0
  | .pow rd rs1 rs2 => wordOfFields 0x30 (fieldOfReg rd) (fieldOfReg rs1) (fieldOfReg rs2) 0
  | .pows rd rs1 => wordOfFields 0x31 (fieldOfReg rd) (fieldOfReg rs1) 0 0
  | .cmp rs1 rs2 => wordOfFields 0x40 0 (fieldOfReg rs1) (fieldOfReg rs2) 0
  | .tstz rs1 => wordOfFields 0x41 0 (fieldOfReg rs1) 0 0
  | .tsto rs1 => wordOfFields 0x42 0 (fieldOfReg rs1) 0 0
  | .neg rd rs1 => wordOfFields 0x43 (fieldOfReg rd) (fieldOfReg rs1) 0 0
  | .not rd rs1 => wordOfFields 0x44 (fieldOfReg rd) (fieldOfReg rs1) 0 0
  | .shl1 rd rs1 => wordOfFields 0x45 (fieldOfReg rd) (fieldOfReg rs1) 0 0
  | .shr1 rd rs1 => wordOfFields 0x46 (fieldOfReg rd) (fieldOfReg rs1) 0 0
  | .mov rd rs1 => wordOfFields 0x50 (fieldOfReg rd) (fieldOfReg rs1) 0 0
  | .clr rd => wordOfFields 0x51 (fieldOfReg rd) 0 0 0

/-- A register's name in the command syntax (00_scope.md R13). -/
def regName (r : Reg) : String :=
  match r with
  | 0 => "r0" | 1 => "r1" | 2 => "r2" | 3 => "r3" | 4 => "r4" | 5 => "r5" | 6 => "r6" | 7 => "r7"

/-- The mnemonic of a command (R84). -/
def mnemonicOf : Instr → String
  | .add _ _ _ => "ADD"
  | .adds _ _ => "ADDS"
  | .sub _ _ _ => "SUB"
  | .subs _ _ => "SUBS"
  | .mul _ _ _ => "MUL"
  | .divrem _ _ _ _ => "DIVREM"
  | .div _ _ _ => "DIV"
  | .mod _ _ _ => "MOD"
  | .pow _ _ _ => "POW"
  | .pows _ _ => "POWS"
  | .cmp _ _ => "CMP"
  | .tstz _ => "TSTZ"
  | .tsto _ => "TSTO"
  | .neg _ _ => "NEG"
  | .not _ _ => "NOT"
  | .shl1 _ _ => "SHL1"
  | .shr1 _ _ => "SHR1"
  | .mov _ _ => "MOV"
  | .clr _ => "CLR"

/-- The destination registers of a command, quotient before remainder (R81, R84). -/
def destsOf : Instr → List Reg
  | .add rd _ _ | .adds rd _ | .sub rd _ _ | .subs rd _ | .mul rd _ _ | .div rd _ _ | .mod rd _ _
  | .pow rd _ _ | .pows rd _ | .neg rd _ | .not rd _ | .shl1 rd _ | .shr1 rd _ | .mov rd _
  | .clr rd => [rd]
  | .divrem rq rr _ _ => [rq, rr]
  | .cmp _ _ | .tstz _ | .tsto _ => []

/-- The source registers of a command, RS1 before RS2 (R81, R84). -/
def sourcesOf : Instr → List Reg
  | .add _ rs1 rs2 | .sub _ rs1 rs2 | .mul _ rs1 rs2 | .divrem _ _ rs1 rs2 | .div _ rs1 rs2
  | .mod _ rs1 rs2 | .pow _ rs1 rs2 | .cmp rs1 rs2 => [rs1, rs2]
  | .adds _ rs1 | .subs _ rs1 | .pows _ rs1 | .tstz rs1 | .tsto rs1 | .neg _ rs1 | .not _ rs1
  | .shl1 _ rs1 | .shr1 _ rs1 | .mov _ rs1 => [rs1]
  | .clr _ => []

/-- The commands that read ARG (R83, R84). -/
def readsArg : Instr → Bool
  | .adds _ _ | .subs _ _ | .pows _ _ => true
  | .add _ _ _ | .sub _ _ _ | .mul _ _ _ | .divrem _ _ _ _ | .div _ _ _ | .mod _ _ _ | .pow _ _ _
  | .cmp _ _ | .tstz _ | .tsto _ | .neg _ _ | .not _ _ | .shl1 _ _ | .shr1 _ _ | .mov _ _
  | .clr _ => false

/-- The command in the command syntax (R96): the mnemonic, then destinations, then sources, separated
by commas. -/
def asm (i : Instr) : String :=
  mnemonicOf i ++ " " ++ String.intercalate ", " ((destsOf i ++ sourcesOf i).map regName)

/-- A row of spec/opcode_table.json: its mask and match (R85). -/
structure TableRow where
  mnemonic : String
  mask : Word
  pattern : Word

/-- spec/opcode_table.json, row for row. -/
def tableRows : List TableRow :=
  [ ⟨"ADD",    0xFFFFFFFFFFF888FF, 0x01⟩,
    ⟨"ADDS",   0xFFFFFFFFFFFF88FF, 0x02⟩,
    ⟨"SUB",    0xFFFFFFFFFFF888FF, 0x03⟩,
    ⟨"SUBS",   0xFFFFFFFFFFFF88FF, 0x04⟩,
    ⟨"MUL",    0xFFFFFFFFFFF888FF, 0x10⟩,
    ⟨"DIVREM", 0xFFFFFFFFFF8888FF, 0x20⟩,
    ⟨"DIV",    0xFFFFFFFFFFF888FF, 0x21⟩,
    ⟨"MOD",    0xFFFFFFFFFFF888FF, 0x22⟩,
    ⟨"POW",    0xFFFFFFFFFFF888FF, 0x30⟩,
    ⟨"POWS",   0xFFFFFFFFFFFF88FF, 0x31⟩,
    ⟨"CMP",    0xFFFFFFFFFFF88FFF, 0x40⟩,
    ⟨"TSTZ",   0xFFFFFFFFFFFF8FFF, 0x41⟩,
    ⟨"TSTO",   0xFFFFFFFFFFFF8FFF, 0x42⟩,
    ⟨"NEG",    0xFFFFFFFFFFFF88FF, 0x43⟩,
    ⟨"NOT",    0xFFFFFFFFFFFF88FF, 0x44⟩,
    ⟨"SHL1",   0xFFFFFFFFFFFF88FF, 0x45⟩,
    ⟨"SHR1",   0xFFFFFFFFFFFF88FF, 0x46⟩,
    ⟨"MOV",    0xFFFFFFFFFFFF88FF, 0x50⟩,
    ⟨"CLR",    0xFFFFFFFFFFFFF8FF, 0x51⟩ ]

end Sys2Proof
end

