-- ==== Sys2Proof/Config.lean ====
section
/-! DEFINITION. What an implementation fixes: the operand width W and the base address BASE
(00_scope.md R7 to R9). The spec leaves no value of the machine open (93_implementation_defined.md:
"Every value the block produces is fixed by a rule"), so there is no free value here; the latency
LAT is the moment of the core's turn in State's inbox (notes/assumptions/3.md). -/

namespace Sys2Proof

/-- The build parameters of one instance. Both are held so that only a legal instance can be written
down (93_implementation_defined.md P1, P2, P4): W is a multiple of 64 from 64 to 32768, BASE a
multiple of 0x20000. -/
structure Config where
  /-- N - 1, the number of an operand's most significant word: 0 to 511 (R8). -/
  topWord : Fin 512
  /-- BASE / 0x20000: which 128 KiB region of the platform's addresses is the block's (R51). -/
  region : Nat
  deriving DecidableEq, Repr

/-- N, the number of 64-bit words of an operand (R8). -/
def Config.numWords (c : Config) : Nat := c.topWord.val + 1

/-- W, the operand width in bits (R7). -/
def Config.width (c : Config) : Nat := 64 * c.numWords

/-- BASE, the byte address of the block's region (R51). -/
def Config.base (c : Config) : Nat := 0x20000 * c.region

/-- The instance State.reset stands for: W = 128, the width of most of the spec's vectors
(95_test_vectors.md section 2), and BASE = 0. DESIGN CHOICE, unsafe where a statement leans on it:
the spec leaves both open, so the obligations speak of every Config (notes/assumptions/1.md). -/
def Config.standard : Config := { topWord := 1, region := 0 }

end Sys2Proof
end

