-- ==== Sys2Proof/Machine/State.lean ====
section
/-! DEFINITION. The state of one MPA instance (10_state.md R34) as plain data, with the two fields the
model adds (what arrives next, and the last reply), the reasons a step stops, and reset (R35). -/

namespace Sys2Proof.Machine

/-- STATUS (10_state.md R24), field by field. The reserved bits 7:5 and 63:13 read 0 and hold nothing,
so they have no field. -/
structure Status where
  /-- Bit 0: a command is pending (R25). -/
  busy : Bool
  /-- Bit 1: the last TSTZ found its register zero (R26). -/
  z : Bool
  /-- Bit 2: bit 0 of the register the last TSTO tested (R26). -/
  odd : Bool
  /-- Bit 3: the last CMP found x[rs1] < x[rs2] (R27). -/
  lt : Bool
  /-- Bit 4: the last CMP found x[rs1] > x[rs2] (R27). -/
  gt : Bool
  /-- Bits 11:8: the outcome code of the last command completed or rejected (R28). -/
  err : BitVec 4
  /-- Bit 12: a host write was dropped because BUSY was 1 (R28). -/
  ovr : Bool
  deriving DecidableEq, Repr

/-- What an access does: return data, or carry data (20_memory.md R50). -/
inductive Direction where
  | read
  | write (v : Word)
  deriving DecidableEq, Repr

/-- One bus access as it arrives: a byte address, a size in bytes, the byte enables of its eight lanes
(lane k at bit k), and a direction (20_memory.md R50, R55, R57). The lanes of an access that is not 8
bytes wide are not read. -/
structure Access where
  addr : Nat
  size : Nat
  lanes : BitVec 8
  dir : Direction
  deriving DecidableEq, Repr

/-- What the block meets next, in the one total order of its steps (20_memory.md R62). -/
inductive Event where
  /-- A host access arrives (00_scope.md R3). -/
  | access (a : Access)
  /-- The core gets its turn: LAT has passed for the pending command (70_reset_and_hazards.md R227). -/
  | core
  /-- The platform resets the block (70_reset_and_hazards.md R220). -/
  | reset
  /-- A host access overlaps the reset step itself (70_reset_and_hazards.md R222). -/
  | accessInReset (a : Access)
  deriving DecidableEq, Repr

/-- What the host gets back from its last access (70_reset_and_hazards.md R230). -/
inductive Reply where
  /-- A supported read returned this word. -/
  | data (v : Word)
  /-- A supported write was taken in, whether it had its effect, was ignored or was dropped. -/
  | ack
  /-- A bus error on a read, and the data it returned (20_memory.md R57). -/
  | readError (v : Word)
  /-- A bus error on a write (20_memory.md R57). -/
  | writeError
  /-- The address is not the block's (20_memory.md R51), which does not respond. -/
  | notSelected
  deriving DecidableEq, Repr

/-- The state. `x`, `arg`, `status` and `pend` are the complete architectural state (R34). `cfg` is the
instance's configuration, which no step changes (R34: parameters, not state). `inbox` and `reply` are
the model's own: the steps still to come in their order of arrival, and what the last host access got
back (notes/assumptions/2.md and 4.md). -/
structure State where
  cfg : Config
  /-- The operand registers r0 to r7, each as its words, word 0 first (R20, R21). -/
  x : Vector Words 8
  /-- The scalar register ARG (R23). -/
  arg : Word
  status : Status
  /-- The pending latch PEND, empty or the accepted command (R31). -/
  pend : Option Instr
  inbox : List Event
  reply : Option Reply
  deriving DecidableEq, Repr

/-- Why the machine stops with a fault. -/
inductive Fault where
  /-- Raised by the core's turn where BUSY = 1 and PEND is empty, which no run from reset reaches
  (10_state.md R31: PEND is non-empty exactly when BUSY = 1). Safe: nothing is claimed of such a
  state. -/
  | emptyLatch
  deriving DecidableEq, Repr

/-- Why a step has no meaning. -/
inductive Refusal where
  /-- Raised by exec's arm of an instruction that has no meaning yet; no arm is left. Safe. -/
  | notModelled (mnemonic : String)
  /-- Raised by DIVREM's meaning where RD = RD2: no command word stands for it, Decode rejects it with
  ALIAS (30_encoding.md R89), and the spec gives its completion no effect. Safe. -/
  | aliasedPair (mnemonic : String)
  /-- Raised by step on a host access that overlaps the reset step: "not defined by this spec. A model
  refuses them" (70_reset_and_hazards.md R222). Safe. -/
  | accessDuringReset
  deriving DecidableEq, Repr

/-- STATUS after reset (10_state.md R35): every field 0. -/
def Status.reset : Status :=
  { busy := false, z := false, odd := false, lt := false, gt := false, err := 0, ovr := false }

/-- The state right after reset of the instance `cfg` (10_state.md R35): every word of every register
0, ARG 0, STATUS 0, PEND empty; nothing has arrived and nothing was answered yet. -/
def State.resetOf (cfg : Config) : State :=
  { cfg := cfg
    x := Vector.replicate 8 (List.replicate cfg.numWords 0)
    arg := 0
    status := Status.reset
    pend := none
    inbox := []
    reply := none }

/-- The state right after reset of the model's standard instance (notes/assumptions/1.md). -/
def State.reset : State := State.resetOf Config.standard

end Sys2Proof.Machine
end

