-- ==== Sys2Proof/Machine/Flags.lean ====
section
/-! DEFINITION. STATUS as the host reads it (10_state.md R24), the flags a command writes (R26, R27),
and the comparisons that give their values (44_primitives.md R160 to R162). -/

namespace Sys2Proof.Machine

/-- The four result flags of STATUS. -/
inductive Flag where
  | z | odd | lt | gt
  deriving DecidableEq, Repr

/-- STATUS as a 64-bit value (R24): reserved bits 7:5 and 63:13 are 0. -/
def Status.toWord (st : Status) : Word :=
  0#51 ++ BitVec.ofBool st.ovr ++ st.err ++ 0#3 ++ BitVec.ofBool st.gt ++ BitVec.ofBool st.lt ++
    BitVec.ofBool st.odd ++ BitVec.ofBool st.z ++ BitVec.ofBool st.busy

/-- `STATUS.f <- b` for a result flag (00_scope.md R12). -/
def Status.setFlag (st : Status) (f : Flag) (b : Bool) : Status :=
  match f with
  | .z => { st with z := b }
  | .odd => { st with odd := b }
  | .lt => { st with lt := b }
  | .gt => { st with gt := b }

/-- The effect of a host write of v on STATUS: OVR is cleared by a 1 in bit 12 of v, and no other bit
of v has an effect (R24). -/
def Status.hostWrite (st : Status) (v : Word) : Status :=
  { st with ovr := st.ovr && !(v.getLsbD 12) }

/-- The flags CMP writes for operands of values a and b (44_primitives.md R160; R27). -/
def compareFlags (a b : Nat) : List (Flag × Bool) := [(.lt, decide (a < b)), (.gt, decide (a > b))]

/-- The flag TSTZ writes for an operand of value a (44_primitives.md R161). -/
def zeroFlag (a : Nat) : List (Flag × Bool) := [(.z, decide (a = 0))]

/-- The flag TSTO writes for an operand of value a: its bit 0 (44_primitives.md R162). -/
def oddFlag (a : Nat) : List (Flag × Bool) := [(.odd, a.testBit 0)]

end Sys2Proof.Machine
end

