-- ==== Sys2Proof/Machine/Operands.lean ====
section
/-! DEFINITION. Operands: a W-bit value and its words (00_scope.md R10), the word-serial operations the
families share (carry chain, complement, one-bit shifts), and the byte lanes of a word. A length is a
number of words; on operands of N words each function gives N words. -/

namespace Sys2Proof.Machine

/-- The value of a word sequence, v = Σ word(v,i)·2^(64i), word 0 least significant
(00_scope.md R10, 20_memory.md R54). -/
def valueOf : Words → Nat
  | [] => 0
  | w :: ws => w.toNat + 2 ^ 64 * valueOf ws

/-- The n words of v, least significant first. What does not fit in 64·n bits is not kept, so a result
written this way is reduced mod 2^W (00_scope.md R10, R11; 10_state.md R21: no bit beyond W exists). -/
def wordsOf : Nat → Nat → Words
  | 0, _ => []
  | n + 1, v => BitVec.ofNat 64 v :: wordsOf n (v / 2 ^ 64)

/-- word(v, i), the word i of an operand (00_scope.md R10); 0 where there is none. -/
def wordAt (ws : Words) (i : Nat) : Word := ws.getD i 0

/-- The n words of the value 0. -/
def zeroWords (n : Nat) : Words := List.replicate n 0

/-- AddWords(a, b, c0) of 40_adder.md R101: each step's sum is exact, its low 64 bits are the word of
the result, and its carry goes into the next word. The last carry is discarded. -/
def addWords (c : Nat) : Words → Words → Words
  | a :: as, b :: bs =>
    BitVec.ofNat 64 (a.toNat + b.toNat + c) :: addWords ((a.toNat + b.toNat + c) / 2 ^ 64) as bs
  | _, _ => []

/-- ~v, every word complemented (00_scope.md R11, 44_primitives.md R164). -/
def notWords (ws : Words) : Words := ws.map (fun w => ~~~w)

/-- ~v + 1, the two's-complement negation, through the carry chain (40_adder.md R103,
44_primitives.md R163). -/
def negWords (ws : Words) : Words := addWords 1 (notWords ws) (zeroWords ws.length)

/-- Subtraction of a scalar from word 0 only: word 0 wraps mod 2^64 and every higher word is copied,
with no borrow into word 1 (40_adder.md R104). -/
def subWordZero (u : Word) : Words → Words
  | [] => []
  | w :: ws => (w - u) :: ws

/-- Shift left by one bit, `carry` entering at bit 0 of word 0 and bit 63 of each word entering the
next one; the top word's bit 63 is lost (44_primitives.md R165). -/
def shlWords (carry : Word) : Words → Words
  | [] => []
  | w :: ws => ((w <<< 1) ||| carry) :: shlWords (w >>> 63) ws

/-- Shift right by one bit, bit 0 of each word entering bit 63 of the word below and 0 entering the top
word; bit 0 of word 0 is lost (44_primitives.md R166). -/
def shrWords : Words → Words
  | [] => []
  | w :: ws => ((w >>> 1) ||| (wordAt ws 0 <<< 63)) :: shrWords ws

/-- Byte lane k of a 64-bit access, bits 8k+7 : 8k of its value (20_memory.md R55). -/
def laneByte (v : Word) (k : Nat) : Byte := v.extractLsb' (8 * k) 8

end Sys2Proof.Machine
end

