-- ==== Sys2Proof/Machine/Ops.lean ====
section
/-! DEFINITION. The named operations over the registers, STATUS and PEND: reading and writing an
operand register (20_memory.md R53), recording an error (the block's whole counterpart of taking an
exception: 60_exceptions.md R205, R206), completing a command (30_encoding.md R94), offering a command
word (R92), and reset (70_reset_and_hazards.md R220). -/

namespace Sys2Proof.Machine

/-- What a meaning and a step answer. -/
abbrev Outcome := Host.Outcome State Fault Refusal

/-- x[r] as its words (00_scope.md R12). -/
def State.reg (s : State) (r : Reg) : Words := s.x[r.val]

/-- x[r] as the unsigned value its words make (00_scope.md R10). -/
def State.val (s : State) (r : Reg) : Nat := valueOf (s.reg r)

/-- `x[r] <- v`, the whole register (10_state.md R22). -/
def State.setReg (s : State) (r : Reg) (ws : Words) : State := { s with x := s.x.set r.val ws }

/-- Word i of x[r] becomes v; every other word and register is unchanged (20_memory.md R53). -/
def State.setWord (s : State) (r : Reg) (i : Nat) (v : Word) : State :=
  s.setReg r ((s.reg r).set i v)

/-- v reduced mod 2^W, as the words of this instance's operands (00_scope.md R11). -/
def State.fit (s : State) (v : Nat) : Words := wordsOf s.cfg.numWords v

/-- 2^W of this instance (00_scope.md R11). -/
def State.modulus (s : State) : Nat := 2 ^ s.cfg.width

/-- `STATUS.ERR <- code` and nothing else (00_scope.md R12, 60_exceptions.md R205). No state is saved,
no mode changes and no handler runs; the next completion or rejection overwrites the code (R206). -/
def State.raiseError (s : State) (code : BitVec 4) : State :=
  { s with status := { s.status with err := code } }

/-- `PEND <- empty; STATUS.BUSY <- 0` (30_encoding.md R94). -/
def State.retire (s : State) : State :=
  { s with pend := none, status := { s.status with busy := false } }

/-- `PEND <- c; STATUS.BUSY <- 1` (30_encoding.md R92). -/
def State.latch (s : State) (c : Instr) : State :=
  { s with pend := some c, status := { s.status with busy := true } }

/-- `STATUS.OVR <- 1`, the one effect of a dropped write (20_memory.md R59). -/
def State.setOvr (s : State) : State := { s with status := { s.status with ovr := true } }

/-- `STATUS.f <- b`. -/
def State.setFlag (s : State) (f : Flag) (b : Bool) : State :=
  { s with status := s.status.setFlag f b }

/-- What Execute(c) returns (30_encoding.md R95). -/
inductive Result where
  | done (regw : List (Reg × Words)) (flagw : List (Flag × Bool))
  | fail (code : BitVec 4)
  deriving DecidableEq, Repr

/-- The register writes of a completion, in their order (30_encoding.md R94). -/
def State.writeRegs (s : State) (regw : List (Reg × Words)) : State :=
  regw.foldl (fun t p => t.setReg p.1 p.2) s

/-- The flag writes of a completion, in their order (30_encoding.md R94). -/
def State.writeFlags (s : State) (flagw : List (Flag × Bool)) : State :=
  flagw.foldl (fun t p => t.setFlag p.1 p.2) s

/-- `complete` of 30_encoding.md R94, for the result Execute gave: Done writes the registers, then the
flags, and ERR <- 0; Fail writes ERR alone; either way PEND is emptied and BUSY cleared, all in this
one step. -/
def State.commit (s : State) (res : Result) : State :=
  match res with
  | .done regw flagw => (((s.writeRegs regw).writeFlags flagw).raiseError 0).retire
  | .fail code => (s.raiseError code).retire

/-- Completion with the given result answers a next state: no result stops the block
(60_exceptions.md R200). -/
def complete (s : State) (res : Result) : Outcome := .next (s.commit res)

/-- The effect of a host write of v to CMD (30_encoding.md R92): dropped while BUSY = 1, else rejected
with its code or accepted into PEND. -/
def State.offer (s : State) (v : Word) : State :=
  if s.status.busy then s.setOvr
  else
    match decode v with
    | .reject r => s.raiseError r.code
    | .accept c => s.latch c

/-- The reset step (70_reset_and_hazards.md R220, R221): every piece of the block's state takes its
reset value whatever it was, a pending command is abandoned; the configuration and what is still to
arrive are not the block's state and stay. -/
def State.resetStep (s : State) : State := { State.resetOf s.cfg with inbox := s.inbox }

end Sys2Proof.Machine
end

