-- ==== Sys2Proof/Machine/Bus.lean ====
section
/-! DEFINITION. The register window (20_memory.md): which accesses the block takes (R51, R57), what each
offset is (R52), what a read returns (R58) and what a write does (R58, R59). -/

namespace Sys2Proof.Machine

/-- What an offset of the region is (R52). -/
inductive Target where
  | id
  | status
  | cmd
  | arg
  | opw (r : Reg) (i : Nat)
  | reserved
  deriving DecidableEq, Repr

/-- The offset map (R52), at an 8-byte-aligned offset. The words N to 511 of a register's window are
reserved. -/
def targetOf (cfg : Config) (off : Nat) : Target :=
  if off = 0x00 then .id
  else if off = 0x08 then .status
  else if off = 0x10 then .cmd
  else if off = 0x18 then .arg
  else if 0x10000 ≤ off ∧ off < 0x18000 then
    if off % 0x1000 / 8 < cfg.numWords then
      .opw ⟨(off / 0x1000) % 8, Nat.mod_lt _ (by decide)⟩ (off % 0x1000 / 8)
    else .reserved
  else .reserved

/-- The ID register (10_state.md R29): MAGIC "MPA1", REV 0x01, NREG 8, NWORDS N. -/
def idWord (cfg : Config) : Word :=
  0x4D504131#32 ++ 0x01#8 ++ 8#8 ++ BitVec.ofNat 16 cfg.numWords

/-- What a read returns (R53, R58, R60): committed values only, CMD and reserved offsets 0
(10_state.md R30, R56). -/
def State.peek (s : State) : Target → Word
  | .id => idWord s.cfg
  | .status => s.status.toWord
  | .cmd => 0
  | .arg => s.arg
  | .opw r i => wordAt (s.reg r) i
  | .reserved => 0

/-- What a write of v does (R58): writes to CMD, ARG and the operand words are dropped while BUSY = 1,
setting OVR (R59); ID and reserved offsets ignore a write (R56). -/
def State.poke (s : State) (v : Word) : Target → State
  | .id => s
  | .status => { s with status := s.status.hostWrite v }
  | .cmd => s.offer v
  | .arg => if s.status.busy then s.setOvr else { s with arg := v }
  | .opw r i => if s.status.busy then s.setOvr else s.setWord r i v
  | .reserved => s

/-- The block decodes this byte address: BASE ≤ addr < BASE + 0x20000 (R51). -/
def selected (cfg : Config) (addr : Nat) : Bool :=
  decide (cfg.base ≤ addr) && decide (addr < cfg.base + 0x20000)

/-- The one supported access (R57): 8 bytes, every lane enabled, at an 8-byte-aligned offset. -/
def supported (cfg : Config) (a : Access) : Bool :=
  a.size == 8 && a.lanes == 0xFF && (a.addr - cfg.base) % 8 == 0

/-- One host access as one atomic step (R50, R61). An access that is not the block's changes nothing;
an unsupported one gets a bus error, changes nothing, and if it is a read returns 0 (R57). -/
def State.access (s : State) (a : Access) : State :=
  if selected s.cfg a.addr then
    if supported s.cfg a then
      match a.dir with
      | .read => { s with reply := some (.data (s.peek (targetOf s.cfg (a.addr - s.cfg.base)))) }
      | .write v =>
        { s.poke v (targetOf s.cfg (a.addr - s.cfg.base)) with reply := some .ack }
    else
      match a.dir with
      | .read => { s with reply := some (.readError 0) }
      | .write _ => { s with reply := some .writeError }
  else { s with reply := some .notSelected }

/-- The offset of OPW(r, i) (R52). -/
def opwOffset (r : Reg) (i : Nat) : Nat := 0x10000 + 0x1000 * r.val + 8 * i

/-- `MemRead(BASE+off, 8)` (00_scope.md R12). -/
def memRead (cfg : Config) (off : Nat) : Access :=
  { addr := cfg.base + off, size := 8, lanes := 0xFF, dir := .read }

/-- `MemWrite(BASE+off, 8, v)` (00_scope.md R12). -/
def memWrite (cfg : Config) (off : Nat) (v : Word) : Access :=
  { addr := cfg.base + off, size := 8, lanes := 0xFF, dir := .write v }

end Sys2Proof.Machine
end

