-- ==== Sys2Proof/Machine/Adder.lean ====
section
/-! DEFINITION. The adder family (40_adder.md): ADD, ADDS, SUB, SUBS. Sources are read whole from the
state before the write (30_encoding.md R93). No flag is written and none can fail. -/

namespace Sys2Proof.Machine

/-- ADD (R100): (x[rs1] + x[rs2]) mod 2^W. -/
def execAdd (rd rs1 rs2 : Reg) (s : State) : Outcome :=
  complete s (.done [(rd, s.fit (s.val rs1 + s.val rs2))] [])

/-- ADDS (R102): (x[rs1] + zext_W(ARG)) mod 2^W. -/
def execAdds (rd rs1 : Reg) (s : State) : Outcome :=
  complete s (.done [(rd, s.fit (s.val rs1 + s.arg.toNat))] [])

/-- The value SUB writes (R103): a where b = 0, else AddWords(a, ~b + 1, 0). -/
def subWords (a b : Words) : Words :=
  if valueOf b = 0 then a else addWords 0 a (negWords b)

/-- SUB (R103): the source's subtraction through two's-complement addition. -/
def execSub (rd rs1 rs2 : Reg) (s : State) : Outcome :=
  complete s (.done [(rd, subWords (s.reg rs1) (s.reg rs2))] [])

/-- SUBS (R104): ARG from word 0 alone, no borrow into word 1. -/
def execSubs (rd rs1 : Reg) (s : State) : Outcome :=
  complete s (.done [(rd, subWordZero s.arg (s.reg rs1))] [])

end Sys2Proof.Machine
end

