-- ==== Sys2Proof/Machine/DataMovement.lean ====
section
/-! DEFINITION. Data movement (45_data_movement.md): MOV and CLR. Neither writes a flag or can fail. -/

namespace Sys2Proof.Machine

/-- MOV (R180): x[rs1] whole. -/
def execMov (rd rs1 : Reg) (s : State) : Outcome := complete s (.done [(rd, s.reg rs1)] [])

/-- CLR (R181): every word of x[rd] becomes 0. -/
def execClr (rd : Reg) (s : State) : Outcome := complete s (.done [(rd, s.fit 0)] [])

end Sys2Proof.Machine
end

