-- ==== Sys2Proof/Machine/Divider.lean ====
section
/-! DEFINITION. The divider (42_divider.md): DIVREM, DIV, MOD over the one DivCore, and the reference
restoring division, which R131 says gives the same quotient and remainder. -/

namespace Sys2Proof.Machine

/-- The code DIVZERO (60_exceptions.md R201). -/
def divZero : BitVec 4 := 1

/-- DivCore(a, b) (R130): no pair where the divisor is 0, else the Euclidean quotient and remainder. -/
def divCore (a b : Nat) : Option (Nat × Nat) := if b = 0 then none else some (a / b, a % b)

/-- Fail(DIVZERO) where DivCore has no pair, else Done with the writes `regw` makes of the pair
(R132 to R135). -/
def divResult (a b : Nat) (regw : Nat → Nat → List (Reg × Words)) : Result :=
  match divCore a b with
  | none => .fail divZero
  | some (q, r) => .done (regw q r) []

/-- DIVREM (R132): the quotient to rq, the remainder to rr. With rq = rr there is no such command
(30_encoding.md R89), and completing one is refused. -/
def execDivrem (rq rr rs1 rs2 : Reg) (s : State) : Outcome :=
  if rq = rr then .refused (.aliasedPair "DIVREM")
  else complete s (divResult (s.val rs1) (s.val rs2) fun q r => [(rq, s.fit q), (rr, s.fit r)])

/-- DIV (R133): the quotient; the remainder is discarded. -/
def execDiv (rd rs1 rs2 : Reg) (s : State) : Outcome :=
  complete s (divResult (s.val rs1) (s.val rs2) fun q _ => [(rd, s.fit q)])

/-- MOD (R134): the remainder; the quotient is discarded. -/
def execMod (rd rs1 rs2 : Reg) (s : State) : Outcome :=
  complete s (divResult (s.val rs1) (s.val rs2) fun _ r => [(rd, s.fit r)])

/-- The normalization of RestoringDivide (R131), at most `fuel` doublings: the shifted divisor d and
the count k, where d is doubled only while its top bit is clear and 2·d does not exceed the
remainder. -/
def normalizeDivisor (width rem : Nat) : Nat → Nat → Nat → Nat × Nat
  | 0, d, k => (d, k)
  | fuel + 1, d, k =>
    if d.testBit (width - 1) = false ∧ 2 * d ≤ rem then
      normalizeDivisor width rem fuel (2 * d) (k + 1)
    else (d, k)

/-- The quotient loop of RestoringDivide (R131), `n` iterations: make room in q, subtract d where it
fits, halve d. -/
def quotientLoop : Nat → Nat → Nat → Nat → Nat × Nat
  | 0, q, rem, _ => (q, rem)
  | n + 1, q, rem, d =>
    if d ≤ rem then quotientLoop n (2 * q + 1) (rem - d) (d / 2)
    else quotientLoop n (2 * q) rem (d / 2)

/-- RestoringDivide(a, b) of R131, for b ≠ 0 and operands of `width` bits. -/
def restoringDivide (width a b : Nat) : Nat × Nat :=
  if a < b then (0, a)
  else
    match normalizeDivisor width a width b 0 with
    | (d, k) => quotientLoop (k + 1) 0 a d

end Sys2Proof.Machine
end

