-- ==== Sys2Proof/Machine/Multiplier.lean ====
section
/-! DEFINITION. The multiplier (41_multiplier.md): MUL, and the source's shift-add algorithm, which R121
says computes the same value. -/

namespace Sys2Proof.Machine

/-- MUL (R120): (x[rs1] · x[rs2]) mod 2^W. -/
def execMul (rd rs1 rs2 : Reg) (s : State) : Outcome :=
  complete s (.done [(rd, s.fit (s.val rs1 * s.val rs2))] [])

/-- The loop of ShiftAddMul (R121), at most `fuel` iterations: add b where a is odd, then halve a and
double b. -/
def shiftAddLoop : Nat → Words → Words → Words → Words
  | 0, result, _, _ => result
  | fuel + 1, result, a, b =>
    if valueOf a = 0 then result
    else
      shiftAddLoop fuel (if (valueOf a).testBit 0 then addWords 0 result b else result) (shrWords a)
        (shlWords 0 b)

/-- ShiftAddMul(a, b) (R121); the loop ends within W iterations. -/
def shiftAddMul (a b : Words) : Words :=
  if valueOf b = 0 then zeroWords a.length
  else shiftAddLoop (64 * a.length) (zeroWords a.length) a b

end Sys2Proof.Machine
end

