-- ==== Sys2Proof/Machine/Power.lean ====
section
/-! DEFINITION. The exponentiation engine (43_exponentiation.md): POW and POWS over the one PowCore. -/

namespace Sys2Proof.Machine

/-- The loop of PowCore (R150) modulo m, at most `fuel` iterations: multiply where the exponent is odd,
square the running base, halve the exponent. -/
def powLoop (m : Nat) : Nat → Nat → Nat → Nat → Nat
  | 0, result, _, _ => result
  | fuel + 1, result, base, e =>
    if e = 0 then result
    else
      powLoop m fuel (if e.testBit 0 then result * base % m else result) (base * base % m) (e / 2)

/-- PowCore(a, e) (R150) modulo m, for an exponent of at most `bits` bits: the loop runs once per bit of
e up to its highest set bit. -/
def powCore (m bits a e : Nat) : Nat := powLoop m bits 1 a e

/-- POW (R151): the exponent is x[rs2], of W bits. -/
def execPow (rd rs1 rs2 : Reg) (s : State) : Outcome :=
  complete s (.done [(rd, s.fit (powCore s.modulus s.cfg.width (s.val rs1) (s.val rs2)))] [])

/-- POWS (R152): the exponent is ARG, of 64 bits. -/
def execPows (rd rs1 : Reg) (s : State) : Outcome :=
  complete s (.done [(rd, s.fit (powCore s.modulus 64 (s.val rs1) s.arg.toNat))] [])

end Sys2Proof.Machine
end

