-- ==== Sys2Proof/Machine/Primitives.lean ====
section
/-! DEFINITION. The comparator and primitives (44_primitives.md): CMP, TSTZ and TSTO write flags and no
register; NEG, NOT, SHL1 and SHR1 write one register and no flag. None can fail. -/

namespace Sys2Proof.Machine

/-- CMP (R160): LT and GT, by unsigned magnitude. -/
def execCmp (rs1 rs2 : Reg) (s : State) : Outcome :=
  complete s (.done [] (compareFlags (s.val rs1) (s.val rs2)))

/-- TSTZ (R161): Z. -/
def execTstz (rs1 : Reg) (s : State) : Outcome := complete s (.done [] (zeroFlag (s.val rs1)))

/-- TSTO (R162): ODD. -/
def execTsto (rs1 : Reg) (s : State) : Outcome := complete s (.done [] (oddFlag (s.val rs1)))

/-- NEG (R163): AddWords(~x[rs1], 0, 1). -/
def execNeg (rd rs1 : Reg) (s : State) : Outcome :=
  complete s (.done [(rd, negWords (s.reg rs1))] [])

/-- NOT (R164): every word complemented. -/
def execNot (rd rs1 : Reg) (s : State) : Outcome :=
  complete s (.done [(rd, notWords (s.reg rs1))] [])

/-- SHL1 (R165): (2 · x[rs1]) mod 2^W. -/
def execShl1 (rd rs1 : Reg) (s : State) : Outcome :=
  complete s (.done [(rd, s.fit (2 * s.val rs1))] [])

/-- SHR1 (R166): x[rs1] div 2. -/
def execShr1 (rd rs1 : Reg) (s : State) : Outcome :=
  complete s (.done [(rd, s.fit (s.val rs1 / 2))] [])

end Sys2Proof.Machine
end

