-- ==== Sys2Proof/Machine/Dispatch.lean ====
section
/-! DEFINITION. `exec i s` is the completion of the pending command i in state s (30_encoding.md R94,
R95): one arm per constructor of Instr, each a direct call of that command's meaning. -/

namespace Sys2Proof.Machine

def exec (i : Instr) (s : State) : Host.Outcome State Fault Refusal :=
  match i with
  | .add rd rs1 rs2 => Sys2Proof.Machine.execAdd rd rs1 rs2 s
  | .adds rd rs1 => Sys2Proof.Machine.execAdds rd rs1 s
  | .sub rd rs1 rs2 => Sys2Proof.Machine.execSub rd rs1 rs2 s
  | .subs rd rs1 => Sys2Proof.Machine.execSubs rd rs1 s
  | .mul rd rs1 rs2 => Sys2Proof.Machine.execMul rd rs1 rs2 s
  | .divrem rq rr rs1 rs2 => Sys2Proof.Machine.execDivrem rq rr rs1 rs2 s
  | .div rd rs1 rs2 => Sys2Proof.Machine.execDiv rd rs1 rs2 s
  | .mod rd rs1 rs2 => Sys2Proof.Machine.execMod rd rs1 rs2 s
  | .pow rd rs1 rs2 => Sys2Proof.Machine.execPow rd rs1 rs2 s
  | .pows rd rs1 => Sys2Proof.Machine.execPows rd rs1 s
  | .cmp rs1 rs2 => Sys2Proof.Machine.execCmp rs1 rs2 s
  | .tstz rs1 => Sys2Proof.Machine.execTstz rs1 s
  | .tsto rs1 => Sys2Proof.Machine.execTsto rs1 s
  | .neg rd rs1 => Sys2Proof.Machine.execNeg rd rs1 s
  | .not rd rs1 => Sys2Proof.Machine.execNot rd rs1 s
  | .shl1 rd rs1 => Sys2Proof.Machine.execShl1 rd rs1 s
  | .shr1 rd rs1 => Sys2Proof.Machine.execShr1 rd rs1 s
  | .mov rd rs1 => Sys2Proof.Machine.execMov rd rs1 s
  | .clr rd => Sys2Proof.Machine.execClr rd s

end Sys2Proof.Machine
end

