-- ==== Sys2Proof/Machine/Lifecycle.lean ====
section
/-! DEFINITION. The block's steps: the core's completion (30_encoding.md R94), and one step for each
event that arrives (20_memory.md R62). -/

namespace Sys2Proof.Machine

/-- The core's turn (30_encoding.md R94): enabled exactly when BUSY = 1, it completes the command in
PEND. While the block is idle the core has no step and nothing changes. -/
def coreTurn (s : State) : Outcome :=
  if s.status.busy then
    match s.pend with
    | some i => exec i s
    | none => .fault .emptyLatch
  else .next s

/-- The step an event makes, in the state where it is no longer in the inbox. -/
def handleEvent (s : State) : Event → Outcome
  | .access a => .next (s.access a)
  | .core => coreTurn s
  | .reset => .next s.resetStep
  | .accessInReset _ => .refused .accessDuringReset

/-- The state in which the very next step runs the command word v: a legal word stands in PEND, as its
acceptance by an idle block leaves it (30_encoding.md R92), and the core's turn is next; an illegal
word is about to be written to CMD of the idle block, which rejects it. -/
def State.presentWord (s : State) (v : Word) : State :=
  match decode v with
  | .accept c => { s.latch c with inbox := .core :: s.inbox }
  | .reject _ => { s.retire with inbox := .access (memWrite s.cfg 0x10 v) :: s.inbox }

end Sys2Proof.Machine
end

