-- ==== Sys2Proof/Machine/Step.lean ====
section
/-! DEFINITION. One step of the block: the next event in arrival order (20_memory.md R62), or the core's
turn where nothing more arrives. -/

namespace Sys2Proof.Machine

/-- One step. The inbox orders host accesses, resets and the core's turns; with nothing left to arrive
it is the core's turn (70_reset_and_hazards.md R227: a pending command eventually completes). -/
def step (s : State) : Host.Outcome State Fault Refusal :=
  match s.inbox with
  | [] => coreTurn s
  | e :: rest => handleEvent { s with inbox := rest } e

/-- s with the command word of the given table bits as what the very next step runs
(notes/assumptions/5.md). -/
def State.withFetchWord (s : State) (nbits w : Nat) : State :=
  s.presentWord (BitVec.ofNat 64 (w % 2 ^ nbits))

end Sys2Proof.Machine
end

