-- ==== Sys2Proof/Machine/HostProgram.lean ====
section
/-! DEFINITION. The host's notation: the directives of 30_encoding.md R97 and the pseudo-instructions of
R98, each as the events it stands for, a run of the block over the events of its inbox, and where a run
ends (70_reset_and_hazards.md R231). -/

namespace Sys2Proof.Machine

/-- `n` steps, stopping at the first fault or refusal. -/
def runSteps : Nat → State → Outcome
  | 0, s => .next s
  | n + 1, s =>
    match step s with
    | .next t => runSteps n t
    | .fault f => .fault f
    | .refused r => .refused r

/-- The run of the block over the given events (20_memory.md R62). -/
def runEvents (s : State) (es : List Event) : Outcome :=
  runSteps es.length { s with inbox := es }

/-- The event is an access the host makes. -/
def Event.isHostAccess : Event → Bool
  | .access _ | .accessInReset _ => true
  | .core | .reset => false

/-- The run is over (70_reset_and_hazards.md R231): the host has no access left to make, and BUSY = 0. A
reset or a core's turn that may still come does not keep it open. -/
abbrev State.RunOver (s : State) : Prop :=
  s.inbox.any Event.isHostAccess = false ∧ s.status.busy = false

/-- The final state of a run that is over at s: the register file, ARG and STATUS (R231). -/
def State.final (s : State) : Vector Words 8 × Word × Status := (s.x, s.arg, s.status)

/-- The run from s to its end (R231): steps up to the first state in which the run is over, at most
`n`. -/
def runToEnd : Nat → State → Outcome
  | 0, s => .next s
  | n + 1, s =>
    if s.RunOver then .next s
    else
      match step s with
      | .next t => runToEnd n t
      | .fault f => .fault f
      | .refused r => .refused r

/-- `READ off` (R97). -/
def readOff (cfg : Config) (off : Nat) : List Event := [.access (memRead cfg off)]

/-- `WRITE off, v` (R97). -/
def writeOff (cfg : Config) (off : Nat) (v : Word) : List Event := [.access (memWrite cfg off v)]

/-- `LOADR r, words` from word i on, in order (R97). -/
def loadFrom (cfg : Config) (r : Reg) : Nat → Words → List Event
  | _, [] => []
  | i, w :: ws => writeOff cfg (opwOffset r i) w ++ loadFrom cfg r (i + 1) ws

/-- `LOADR r, words` (R97). -/
def loadReg (cfg : Config) (r : Reg) (ws : Words) : List Event := loadFrom cfg r 0 ws

/-- `STORER r` (R97). -/
def storeReg (cfg : Config) (r : Reg) : List Event :=
  (List.range cfg.numWords).flatMap fun i => readOff cfg (opwOffset r i)

/-- `SETARG v` (R97). -/
def setArg (cfg : Config) (v : Word) : List Event := writeOff cfg 0x18 v

/-- `ISSUE`, with the command word given (R97). -/
def issueWord (cfg : Config) (v : Word) : List Event := writeOff cfg 0x10 v

/-- `ISSUE cmd` (R97). -/
def issue (cfg : Config) (i : Instr) : List Event := issueWord cfg (encode i)

/-- `WAIT` (R97): STATUS is read until it shows BUSY = 0. LAT decides how many of the reads come before
the completion (70_reset_and_hazards.md R227): here `polls` of them, then the core's turn, then the
read that ends the wait. DESIGN CHOICE: LAT as that place of the core's turn (notes/assumptions/3.md), and
the accesses as arriving in the order written (notes/assumptions/10.md). -/
def waitIdle (cfg : Config) (polls : Nat) : List Event :=
  (List.replicate polls (readOff cfg 0x08)).flatten ++ [.core] ++ readOff cfg 0x08

/-- `EXEC cmd` (R97). -/
def execCmd (cfg : Config) (polls : Nat) (i : Instr) : List Event := issue cfg i ++ waitIdle cfg polls

/-- `CLROVR` (R97). -/
def clearOvr (cfg : Config) : List Event := writeOff cfg 0x08 0x1000

/-- `LI rd, imm64` (R98), with the polls of its first WAIT and of its second. -/
def pseudoLi (cfg : Config) (polls polls' : Nat) (rd : Reg) (imm : Word) : List Event :=
  execCmd cfg polls (.clr rd) ++ setArg cfg imm ++ execCmd cfg polls' (.adds rd rd)

/-- `INC rd, rs` (R98). -/
def pseudoInc (cfg : Config) (polls : Nat) (rd rs : Reg) : List Event :=
  setArg cfg 1 ++ execCmd cfg polls (.adds rd rs)

/-- `SQR rd, rs` (R98). -/
def pseudoSqr (cfg : Config) (polls : Nat) (rd rs : Reg) : List Event :=
  execCmd cfg polls (.mul rd rs rs)

/-- `DBL rd, rs` (R98). -/
def pseudoDbl (cfg : Config) (polls : Nat) (rd rs : Reg) : List Event :=
  execCmd cfg polls (.shl1 rd rs)

/-- `HALF rd, rs` (R98). -/
def pseudoHalf (cfg : Config) (polls : Nat) (rd rs : Reg) : List Event :=
  execCmd cfg polls (.shr1 rd rs)

end Sys2Proof.Machine
end

