-- ==== Sys2Proof/Safety.lean ====
section
/-! DEFINITION. What claims are stated in: the invariant of the block, the clean entry of a run
(70_reset_and_hazards.md R232), and what a completion leaves unchanged. -/

namespace Sys2Proof.Machine

/-- Every operand register holds exactly N words (10_state.md R20, R21). -/
abbrev State.RegsWf (s : State) : Prop := ∀ r : Reg, (s.reg r).length = s.cfg.numWords

/-- PEND is non-empty exactly when BUSY = 1 (10_state.md R31), and what it holds is a command some legal
word stands for. -/
abbrev State.LatchWf (s : State) : Prop :=
  s.status.busy = s.pend.isSome ∧ s.pend.all Instr.wf = true

/-- ERR holds a code that is produced: 6 to 15 are never written (10_state.md R28). -/
abbrev State.ErrWf (s : State) : Prop := s.status.err.toNat ≤ 5

/-- LT and GT are never both 1 (10_state.md R27). -/
abbrev State.CompareWf (s : State) : Prop := ¬(s.status.lt = true ∧ s.status.gt = true)

/-- The invariant: holds at reset, and every step keeps it. -/
abbrev State.Inv (s : State) : Prop := s.RegsWf ∧ s.LatchWf ∧ s.ErrWf ∧ s.CompareWf

/-- CleanEntry (70_reset_and_hazards.md R232). -/
abbrev State.CleanEntry (s : State) : Prop :=
  s.status.busy = false ∧ s.pend = none ∧ s.status.err = 0 ∧ s.status.ovr = false ∧
    s.status.z = false ∧ s.status.odd = false ∧ s.status.lt = false ∧ s.status.gt = false

/-- The result flags Z, ODD, LT and GT of t are those of s. -/
abbrev State.SameFlags (s t : State) : Prop :=
  t.status.z = s.status.z ∧ t.status.odd = s.status.odd ∧ t.status.lt = s.status.lt ∧
    t.status.gt = s.status.gt

/-- What no completion touches: ARG (10_state.md R23), OVR (R28), the configuration (R34), and the
model's own inbox and reply. -/
abbrev State.SameRest (s t : State) : Prop :=
  t.arg = s.arg ∧ t.status.ovr = s.status.ovr ∧ t.cfg = s.cfg ∧ t.inbox = s.inbox ∧
    t.reply = s.reply

/-- t is idle with the outcome code given: PEND empty, BUSY = 0 (30_encoding.md R94). -/
abbrev State.IdleWith (t : State) (code : BitVec 4) : Prop :=
  t.pend = none ∧ t.status.busy = false ∧ t.status.err = code

/-- t is s after a successful completion that wrote the value v, reduced to N words, to register rd
and nothing else: every other register, every flag and the rest are as in s, ERR = 0. -/
abbrev State.WroteOne (s t : State) (rd : Reg) (v : Nat) : Prop :=
  t.val rd = v ∧ (t.reg rd).length = s.cfg.numWords ∧ (∀ r, r ≠ rd → t.reg r = s.reg r) ∧
    s.SameFlags t ∧ s.SameRest t ∧ t.IdleWith 0

/-- t is s after a successful completion that wrote no register; the flags are the statement's. -/
abbrev State.WroteNoReg (s t : State) : Prop :=
  (∀ r, t.reg r = s.reg r) ∧ s.SameRest t ∧ t.IdleWith 0

/-- t is s after a division by zero: ERR = DIVZERO, BUSY = 0, PEND empty, and nothing else changed
(42_divider.md R135). -/
abbrev State.FailedDivision (s t : State) : Prop :=
  (∀ r, t.reg r = s.reg r) ∧ s.SameFlags t ∧ s.SameRest t ∧ t.IdleWith 1

/-- t is s after a successful DIVREM: the quotient q in rq, the remainder r in rr, nothing else
(42_divider.md R132). -/
abbrev State.WrotePair (s t : State) (rq rr : Reg) (q r : Nat) : Prop :=
  t.val rq = q ∧ (t.reg rq).length = s.cfg.numWords ∧ t.val rr = r ∧
    (t.reg rr).length = s.cfg.numWords ∧ (∀ r', r' ≠ rq → r' ≠ rr → t.reg r' = s.reg r') ∧
    s.SameFlags t ∧ s.SameRest t ∧ t.IdleWith 0

/-- The operand registers, ARG, STATUS and PEND of t are those of s: the architectural state is
unchanged (10_state.md R34). -/
abbrev State.SameArch (s t : State) : Prop :=
  t.x = s.x ∧ t.arg = s.arg ∧ t.status = s.status ∧ t.pend = s.pend ∧ t.cfg = s.cfg

/-- A supported read of the offset answers v, and changes nothing (20_memory.md R58). -/
abbrev State.ReadsAs (s : State) (off : Nat) (v : Word) : Prop :=
  s.access (memRead s.cfg off) = { s with reply := some (.data v) }

/-- A supported write of v to the offset is acknowledged and otherwise leaves the state t. -/
abbrev State.WriteGives (s : State) (off : Nat) (v : Word) (t : State) : Prop :=
  s.access (memWrite s.cfg off v) = { t with reply := some .ack }

/-- An offset that is reserved (20_memory.md R52): outside the four registers and the operand window,
or a word N to 511 of a register's window. -/
abbrev reservedOffset (cfg : Config) (off : Nat) : Prop :=
  off % 8 = 0 ∧
    ((0x20 ≤ off ∧ off < 0x10000) ∨ (0x18000 ≤ off ∧ off < 0x20000) ∨
      (0x10000 ≤ off ∧ off < 0x18000 ∧ cfg.numWords ≤ off % 0x1000 / 8))

/-- The next step is the completion of the pending command i (30_encoding.md R94). -/
abbrev State.Completes (s : State) (i : Instr) : Prop :=
  s.status.busy = true ∧ s.pend = some i ∧ (s.inbox = [] ∨ s.inbox.head? = some .core)

/-- The next step is a reset (70_reset_and_hazards.md R220). -/
abbrev State.Resets (s : State) : Prop := s.inbox.head? = some .reset

/-- The next step is a host write of v to the offset (20_memory.md R50). -/
abbrev State.HostWrites (s : State) (off : Nat) (v : Word) : Prop :=
  s.inbox.head? = some (.access (memWrite s.cfg off v))

/-- The defined opcodes (30_encoding.md R84). -/
def definedOpcodes : List (BitVec 8) :=
  [0x01, 0x02, 0x03, 0x04, 0x10, 0x20, 0x21, 0x22, 0x30, 0x31, 0x40, 0x41, 0x42, 0x43, 0x44, 0x45,
    0x46, 0x50, 0x51]

/-- The opcodes that do not use RD (30_encoding.md R84). -/
def noRdOpcodes : List (BitVec 8) := [0x40, 0x41, 0x42]

/-- The opcode that does not use RS1 (30_encoding.md R84). -/
def noRs1Opcodes : List (BitVec 8) := [0x51]

/-- The opcodes that do not use RS2 (30_encoding.md R84). -/
def noRs2Opcodes : List (BitVec 8) :=
  [0x02, 0x04, 0x31, 0x41, 0x42, 0x43, 0x44, 0x45, 0x46, 0x50, 0x51]

/-- Some register field the opcode does not use is not 0 (30_encoding.md R84, R87): only DIVREM, 0x20,
uses RD2. -/
abbrev UnusedFieldNonzero (v : Word) : Prop :=
  (opcField v ∈ noRdOpcodes ∧ rdField v ≠ 0) ∨ (opcField v ∈ noRs1Opcodes ∧ rs1Field v ≠ 0) ∨
    (opcField v ∈ noRs2Opcodes ∧ rs2Field v ≠ 0) ∨ (opcField v ≠ 0x20 ∧ rd2Field v ≠ 0)

/-- Some register field holds 8 or more (30_encoding.md R88; an unused field is 0 where this is asked,
so the field is one the opcode uses). -/
abbrev FieldTooLarge (v : Word) : Prop :=
  8 ≤ (rdField v).toNat ∨ 8 ≤ (rs1Field v).toNat ∨ 8 ≤ (rs2Field v).toNat ∨ 8 ≤ (rd2Field v).toNat

/-- The divisor's register of the three commands that divide (42_divider.md R135). -/
def divisorOf : Instr → Option Reg
  | .divrem _ _ _ rs2 | .div _ _ rs2 | .mod _ _ rs2 => some rs2
  | .add _ _ _ | .adds _ _ | .sub _ _ _ | .subs _ _ | .mul _ _ _ | .pow _ _ _ | .pows _ _
  | .cmp _ _ | .tstz _ | .tsto _ | .neg _ _ | .not _ _ | .shl1 _ _ | .shr1 _ _ | .mov _ _
  | .clr _ => none

end Sys2Proof.Machine
end

