-- ==== Sys2Proof/Certificates/Slice0/Obligations.lean ====
section
/-! DEFINITION. The statements for the provers, each a rule of the spec about the machine. They speak of
every Config, so of every legal W and BASE. -/

section

open Sys2Proof Sys2Proof.Machine

/-! ### Reset -/

/-- 10_state.md R35: after reset every word of every register, ARG and every STATUS field is 0 and PEND
is empty, and a reset leaves ID as it is. -/
def Obligations.ResetLeavesAllZero : Prop :=
  (∀ cfg : Config,
    (∀ r, (State.resetOf cfg).val r = 0 ∧ ((State.resetOf cfg).reg r).length = cfg.numWords ∧
      ∀ i, wordAt ((State.resetOf cfg).reg r) i = 0) ∧
    (State.resetOf cfg).arg = 0 ∧
    (State.resetOf cfg).status =
      { busy := false, z := false, odd := false, lt := false, gt := false, err := 0, ovr := false } ∧
    (State.resetOf cfg).pend = none) ∧
  ∀ s : State, s.resetStep.peek .id = s.peek .id

/-- 70_reset_and_hazards.md R220, R221: a reset takes every piece of state to its reset value, whatever
state it starts from, leaves ID, and abandons a pending command: the core has no completion for it. -/
def Obligations.ResetRestoresEverythingAndAbandons : Prop :=
  ∀ (s : State) (rest : List Event), s.inbox = .reset :: rest →
    ∃ t, step s = .next t ∧
      (∀ r, t.val r = 0 ∧ (t.reg r).length = s.cfg.numWords) ∧ t.arg = 0 ∧
      t.CleanEntry ∧ t.cfg = s.cfg ∧ t.peek .id = s.peek .id ∧ t.inbox = rest ∧
      coreTurn t = .next t

/-! ### Encoding -/

/-- Decoding the word of a well-formed command gives that command back, for every command and every
operand (30_encoding.md R90, R96). -/
def Obligations.DecodeOfEncodeIsIdentity : Prop :=
  ∀ i : Instr, i.wf = true → decode (encode i) = .accept i

/-- Each command has one word: a word that is accepted is the encoding of the command it decodes to,
which is well-formed (30_encoding.md R85, decision D18). -/
def Obligations.AcceptedWordIsTheEncoding : Prop :=
  ∀ (v : Word) (i : Instr), decode v = .accept i → encode i = v ∧ i.wf = true

/-- 30_encoding.md R85: a word with a defined opcode is legal exactly when its reserved bits are 0, its
unused fields are 0, its used fields are below 8 and, for DIVREM, RD ≠ RD2; and it is legal for a row of
the opcode table exactly when its masked bits are the row's and, for DIVREM, RD ≠ RD2. -/
def Obligations.LegalWordsAreTheTableRows : Prop :=
  (∀ v : Word, opcField v ∈ definedOpcodes →
    ((∃ i, decode v = .accept i) ↔
      reservedField v = 0 ∧ ¬UnusedFieldNonzero v ∧ ¬FieldTooLarge v ∧
        (opcField v = 0x20 → rdField v ≠ rd2Field v))) ∧
  ∀ row ∈ tableRows, ∀ v : Word,
    (∃ i, decode v = .accept i ∧ mnemonicOf i = row.mnemonic) ↔
      v &&& row.mask = row.pattern ∧ (row.mnemonic = "DIVREM" → rdField v ≠ rd2Field v)

/-- 30_encoding.md R86 to R90: the checks of Decode, each outcome under exactly the condition that its
own check fails and every earlier one passes. -/
def Obligations.DecodeChecksInOrder : Prop :=
  ∀ v : Word,
    (decode v = .reject .illop ↔ opcField v ∉ definedOpcodes) ∧
    (decode v = .reject .illfmt ↔
      opcField v ∈ definedOpcodes ∧ (reservedField v ≠ 0 ∨ UnusedFieldNonzero v)) ∧
    (decode v = .reject .illreg ↔
      opcField v ∈ definedOpcodes ∧ reservedField v = 0 ∧ ¬UnusedFieldNonzero v ∧
        FieldTooLarge v) ∧
    (decode v = .reject .aliased ↔
      reservedField v = 0 ∧ ¬FieldTooLarge v ∧ opcField v = 0x20 ∧ rdField v = rd2Field v) ∧
    Reject.code .illop = 2 ∧ Reject.code .illfmt = 3 ∧ Reject.code .illreg = 4 ∧
    Reject.code .aliased = 5

/-- Words of 95_test_vectors.md sections 2.7 and 2.8 and what they stand for. -/
def Obligations.SpecWordsDecode : Prop :=
  decode 0x32101 = .accept (.add 1 2 3) ∧ decode 0x56710 = .accept (.mul 7 6 5) ∧
    decode 0x421320 = .accept (.divrem 3 4 1 2) ∧ decode 0x1331 = .accept (.pows 3 1) ∧
    decode 0x65040 = .accept (.cmp 5 6) ∧ decode 0x551 = .accept (.clr 5) ∧
    decode 0x0 = .reject .illop ∧ decode 0x18940 = .reject .illfmt ∧
    decode 0x821820 = .reject .illreg ∧ decode 0x421420 = .reject .aliased

/-- 30_encoding.md R81, R96: a word made from fields is `OPC | RD<<8 | RS1<<12 | RS2<<16 | RD2<<20`, its
fields read back, and its reserved bits are 0. -/
def Obligations.WordOfFieldsHasTheFormat : Prop :=
  ∀ (opc : BitVec 8) (rd rs1 rs2 rd2 : BitVec 4),
    (wordOfFields opc rd rs1 rs2 rd2).toNat =
      opc.toNat + rd.toNat * 2 ^ 8 + rs1.toNat * 2 ^ 12 + rs2.toNat * 2 ^ 16 + rd2.toNat * 2 ^ 20 ∧
    ∀ v : Word,
      (opcField v).toNat = v.toNat % 2 ^ 8 ∧ (rdField v).toNat = v.toNat / 2 ^ 8 % 2 ^ 4 ∧
      (rs1Field v).toNat = v.toNat / 2 ^ 12 % 2 ^ 4 ∧ (rs2Field v).toNat = v.toNat / 2 ^ 16 % 2 ^ 4 ∧
      (rd2Field v).toNat = v.toNat / 2 ^ 20 % 2 ^ 4 ∧ (reservedField v).toNat = v.toNat / 2 ^ 24

/-! ### The adder family -/

/-- 40_adder.md R100: ADD completes with (x[rs1] + x[rs2]) mod 2^W in rd, and changes nothing else but
ERR = 0, PEND and BUSY. -/
def Obligations.AddWritesTheSum : Prop :=
  ∀ (s : State) (rd rs1 rs2 : Reg),
    decode (wordOfFields 0x01 (fieldOfReg rd) (fieldOfReg rs1) (fieldOfReg rs2) 0) =
      .accept (.add rd rs1 rs2) ∧
    ∃ t, exec (.add rd rs1 rs2) s = .next t ∧
      s.WroteOne t rd ((s.val rs1 + s.val rs2) % s.modulus)

/-- 40_adder.md R102: ADDS completes with (x[rs1] + ARG) mod 2^W in rd and changes nothing else. -/
def Obligations.AddsWritesTheScalarSum : Prop :=
  ∀ (s : State) (rd rs1 : Reg),
    decode (wordOfFields 0x02 (fieldOfReg rd) (fieldOfReg rs1) 0 0) = .accept (.adds rd rs1) ∧
    ∃ t, exec (.adds rd rs1) s = .next t ∧
      s.WroteOne t rd ((s.val rs1 + s.arg.toNat) % s.modulus)

/-- 40_adder.md R103: SUB completes with (x[rs1] − x[rs2]) mod 2^W in rd and changes nothing else. -/
def Obligations.SubWritesTheDifference : Prop :=
  ∀ (s : State) (rd rs1 rs2 : Reg), s.RegsWf →
    decode (wordOfFields 0x03 (fieldOfReg rd) (fieldOfReg rs1) (fieldOfReg rs2) 0) =
      .accept (.sub rd rs1 rs2) ∧
    ∃ t, exec (.sub rd rs1 rs2) s = .next t ∧
      s.WroteOne t rd ((s.val rs1 + (s.modulus - s.val rs2)) % s.modulus)

/-- 40_adder.md R104: SUBS completes with ARG taken from word 0 alone, wrapping mod 2^64, and the higher
words copied: no borrow into word 1. -/
def Obligations.SubsWrapsWordZeroOnly : Prop :=
  ∀ (s : State) (rd rs1 : Reg), s.RegsWf →
    decode (wordOfFields 0x04 (fieldOfReg rd) (fieldOfReg rs1) 0 0) = .accept (.subs rd rs1) ∧
    ∃ t, exec (.subs rd rs1) s = .next t ∧
      s.WroteOne t rd
        (s.val rs1 - (wordAt (s.reg rs1) 0).toNat +
          ((wordAt (s.reg rs1) 0).toNat + (2 ^ 64 - s.arg.toNat)) % 2 ^ 64) ∧
      (∀ i, 0 < i → wordAt (t.reg rd) i = wordAt (s.reg rs1) i) ∧
      (s.arg.toNat ≤ (wordAt (s.reg rs1) 0).toNat → t.val rd = s.val rs1 - s.arg.toNat) ∧
      ((wordAt (s.reg rs1) 0).toNat < s.arg.toNat →
        t.val rd = s.val rs1 + 2 ^ 64 - s.arg.toNat)

/-- 40_adder.md R101: AddWords computes (a + b + c) mod 2^W for W-bit a and b and c in 0 to 1; each of its
steps gives the sum's low 64 bits and the carry into the next word, which is 1 exactly when the sum
reaches 2^64 (with no carry in, exactly when the sum's word is below either input); and ADD and ADDS
write what it gives. -/
def Obligations.AddWordsIsTheModularSum : Prop :=
  (∀ (n c : Nat) (a b : Words), a.length = n → b.length = n → c ≤ 1 →
    (addWords c a b).length = n ∧
    valueOf (addWords c a b) = (valueOf a + valueOf b + c) % 2 ^ (64 * n)) ∧
  (∀ (a b : Word) (c : Nat), c ≤ 1 →
    (∀ as bs : Words, addWords c (a :: as) (b :: bs) =
      BitVec.ofNat 64 (a.toNat + b.toNat + c) ::
        addWords ((a.toNat + b.toNat + c) / 2 ^ 64) as bs) ∧
    (a.toNat + b.toNat + c) / 2 ^ 64 ≤ 1 ∧
    ((a.toNat + b.toNat + c) / 2 ^ 64 = 1 ↔ 2 ^ 64 ≤ a.toNat + b.toNat + c)) ∧
  (∀ a b : Word, (a.toNat + b.toNat) / 2 ^ 64 = 1 ↔
    (a.toNat + b.toNat) % 2 ^ 64 < a.toNat ∨ (a.toNat + b.toNat) % 2 ^ 64 < b.toNat) ∧
  ∀ s : State, s.RegsWf → ∀ rd rs1 rs2 : Reg,
    (∃ t, exec (.add rd rs1 rs2) s = .next t ∧
      t.reg rd = addWords 0 (s.reg rs1) (s.reg rs2)) ∧
    ∃ t, exec (.adds rd rs1) s = .next t ∧
      t.reg rd = addWords 0 (s.reg rs1) (s.fit s.arg.toNat)

/-- 40_adder.md R105, the laws of the adder, as commands that run one after the other: addition is
commutative and associative, ADD undoes SUB, adding 1 to 2^W − 1 gives 0, and ADDS does not undo SUBS
where N > 1 and ARG is above word 0. -/
def Obligations.AdderLaws : Prop :=
  (∀ (s : State) (rd a b : Reg), exec (.add rd a b) s = exec (.add rd b a) s) ∧
  (∀ (s t u t' u' : State) (rd a b c : Reg), rd ≠ a → rd ≠ b → rd ≠ c →
    exec (.add rd a b) s = .next t → exec (.add rd rd c) t = .next u →
    exec (.add rd b c) s = .next t' → exec (.add rd a rd) t' = .next u' →
    u.reg rd = u'.reg rd) ∧
  (∀ (s t u : State) (rd a b : Reg), s.RegsWf → rd ≠ b →
    exec (.sub rd a b) s = .next t → exec (.add rd rd b) t = .next u → u.reg rd = s.reg a) ∧
  (∀ (s t : State) (rd a : Reg), s.val a = s.modulus - 1 → s.arg = 1 →
    exec (.adds rd a) s = .next t → t.val rd = 0) ∧
  (∀ (s t u : State) (rd a : Reg), s.RegsWf → 1 < s.cfg.numWords →
    (wordAt (s.reg a) 0).toNat < s.arg.toNat →
    exec (.subs rd a) s = .next t → exec (.adds rd rd) t = .next u → u.reg rd ≠ s.reg a)

/-! ### The multiplier -/

/-- 41_multiplier.md R120: MUL completes with (x[rs1] · x[rs2]) mod 2^W in rd and changes nothing
else. -/
def Obligations.MulWritesTheProduct : Prop :=
  ∀ (s : State) (rd rs1 rs2 : Reg),
    decode (wordOfFields 0x10 (fieldOfReg rd) (fieldOfReg rs1) (fieldOfReg rs2) 0) =
      .accept (.mul rd rs1 rs2) ∧
    ∃ t, exec (.mul rd rs1 rs2) s = .next t ∧
      s.WroteOne t rd (s.val rs1 * s.val rs2 % s.modulus)

/-- 41_multiplier.md R121: the shift-add algorithm over words computes MUL's value, and its loop has
ended after W iterations. -/
def Obligations.ShiftAddComputesMul : Prop :=
  (∀ (n : Nat) (a b : Words), a.length = n → b.length = n →
    (shiftAddMul a b).length = n ∧
    valueOf (shiftAddMul a b) = valueOf a * valueOf b % 2 ^ (64 * n) ∧
    ∀ fuel, 64 * n ≤ fuel →
      shiftAddLoop fuel (zeroWords n) a b = shiftAddLoop (64 * n) (zeroWords n) a b) ∧
  ∀ s : State, s.RegsWf → ∀ rd rs1 rs2 : Reg,
    ∃ t, exec (.mul rd rs1 rs2) s = .next t ∧ t.reg rd = shiftAddMul (s.reg rs1) (s.reg rs2)

/-- 41_multiplier.md R122: multiplication is commutative and associative, and distributes over
addition. -/
def Obligations.MultiplierLaws : Prop :=
  (∀ (s : State) (rd a b : Reg), exec (.mul rd a b) s = exec (.mul rd b a) s) ∧
  (∀ (s t u t' u' : State) (rd a b c : Reg), rd ≠ a → rd ≠ b → rd ≠ c →
    exec (.mul rd a b) s = .next t → exec (.mul rd rd c) t = .next u →
    exec (.mul rd b c) s = .next t' → exec (.mul rd a rd) t' = .next u' →
    u.reg rd = u'.reg rd) ∧
  (∀ (s t u t' u' w' : State) (rd re a b c : Reg), rd ≠ a → rd ≠ b → rd ≠ c → re ≠ a → re ≠ b →
    re ≠ c → rd ≠ re →
    exec (.add rd b c) s = .next t → exec (.mul rd a rd) t = .next u →
    exec (.mul rd a b) s = .next t' → exec (.mul re a c) t' = .next u' →
    exec (.add rd rd re) u' = .next w' →
    u.reg rd = w'.reg rd)

/-! ### The divider -/

/-- 42_divider.md R130: DivCore fails exactly for a zero divisor, and otherwise gives q and r with
a = q·b + r exactly, r < b and q ≤ a. -/
def Obligations.DivCoreIsEuclidean : Prop :=
  (∀ a : Nat, divCore a 0 = none) ∧
  ∀ a b : Nat, b ≠ 0 →
    ∃ q r, divCore a b = some (q, r) ∧ q = a / b ∧ r = a % b ∧ a = q * b + r ∧ r < b ∧ q ≤ a

/-- 42_divider.md R132: DIVREM completes with the quotient in rq and the remainder in rr and changes
nothing else, fails with DIVZERO for a zero divisor, and its word with RD = RD2 is rejected. -/
def Obligations.DivremWritesBoth : Prop :=
  ∀ (s : State) (rq rr rs1 rs2 : Reg), s.RegsWf →
    (rq ≠ rr →
      decode (wordOfFields 0x20 (fieldOfReg rq) (fieldOfReg rs1) (fieldOfReg rs2) (fieldOfReg rr)) =
        .accept (.divrem rq rr rs1 rs2) ∧
      ∃ t, exec (.divrem rq rr rs1 rs2) s = .next t ∧
        (s.val rs2 ≠ 0 → s.WrotePair t rq rr (s.val rs1 / s.val rs2) (s.val rs1 % s.val rs2)) ∧
        (s.val rs2 = 0 → s.FailedDivision t)) ∧
    decode (wordOfFields 0x20 (fieldOfReg rq) (fieldOfReg rs1) (fieldOfReg rs2) (fieldOfReg rq)) =
      .reject .aliased

/-- 42_divider.md R133: DIV completes with the quotient in rd and changes nothing else, or fails with
DIVZERO. -/
def Obligations.DivWritesTheQuotient : Prop :=
  ∀ (s : State) (rd rs1 rs2 : Reg), s.RegsWf →
    decode (wordOfFields 0x21 (fieldOfReg rd) (fieldOfReg rs1) (fieldOfReg rs2) 0) =
      .accept (.div rd rs1 rs2) ∧
    ∃ t, exec (.div rd rs1 rs2) s = .next t ∧
      (s.val rs2 ≠ 0 → s.WroteOne t rd (s.val rs1 / s.val rs2)) ∧
      (s.val rs2 = 0 → s.FailedDivision t)

/-- 42_divider.md R134: MOD completes with the remainder in rd and changes nothing else, or fails with
DIVZERO. -/
def Obligations.ModWritesTheRemainder : Prop :=
  ∀ (s : State) (rd rs1 rs2 : Reg), s.RegsWf →
    decode (wordOfFields 0x22 (fieldOfReg rd) (fieldOfReg rs1) (fieldOfReg rs2) 0) =
      .accept (.mod rd rs1 rs2) ∧
    ∃ t, exec (.mod rd rs1 rs2) s = .next t ∧
      (s.val rs2 ≠ 0 → s.WroteOne t rd (s.val rs1 % s.val rs2)) ∧
      (s.val rs2 = 0 → s.FailedDivision t)

/-- 30_encoding.md R95, 42_divider.md R135: every command completes; a zero divisor of DIVREM, DIV or MOD
fails with DIVZERO, writes ERR and clears BUSY and nothing else, and the next legal word is accepted;
nothing else fails. -/
def Obligations.OnlyAZeroDivisorFails : Prop :=
  ∀ (i : Instr) (s : State), i.wf = true →
    ∃ t, exec i s = .next t ∧
      (t.status.err = 0 ∨ t.status.err = 1) ∧
      (t.status.err = 1 ↔ ∃ r, divisorOf i = some r ∧ s.val r = 0) ∧
      (t.status.err = 1 → s.FailedDivision t) ∧
      t.pend = none ∧ t.status.busy = false ∧
      ∀ v c, decode v = .accept c → t.offer v = t.latch c

/-- 42_divider.md R131: the restoring division gives the Euclidean quotient and remainder of W-bit
operands, and its normalization stops at d = b·2^k with d not above the dividend, no bit beyond W, and
the top bit set or the next doubling above the dividend, so with at most W quotient bits. -/
def Obligations.RestoringDivisionIsEuclidean : Prop :=
  ∀ width a b : Nat, 0 < width → a < 2 ^ width → b < 2 ^ width → b ≠ 0 →
    restoringDivide width a b = (a / b, a % b) ∧
    (b ≤ a → ∃ d k, normalizeDivisor width a width b 0 = (d, k) ∧ d = b * 2 ^ k ∧ d ≤ a ∧
      d < 2 ^ width ∧ k + 1 ≤ width ∧ (d.testBit (width - 1) = true ∨ a < 2 * d))

/-- 42_divider.md R137: q = a div b, q·b, r = a mod b, q·b + r, run as DIV, MUL, MOD and ADD, gives a
back; MOD's result is below the divisor; DIVREM gives what DIV and MOD give; and a zero divisor leaves
every register of all three. -/
def Obligations.DividerLaws : Prop :=
  (∀ (s t u v w : State) (q r a b : Reg), s.RegsWf → s.val b ≠ 0 → q ≠ a → q ≠ b → r ≠ q →
    exec (.div q a b) s = .next t → exec (.mul q q b) t = .next u →
    exec (.mod r a b) u = .next v → exec (.add q q r) v = .next w → w.reg q = s.reg a) ∧
  (∀ (s t : State) (r a b : Reg), s.RegsWf → s.val b ≠ 0 → exec (.mod r a b) s = .next t →
    t.val r < s.val b) ∧
  (∀ (s t u v : State) (q r a b : Reg), q ≠ r → s.val b ≠ 0 →
    exec (.divrem q r a b) s = .next t → exec (.div q a b) s = .next u →
    exec (.mod r a b) s = .next v → t.reg q = u.reg q ∧ t.reg r = v.reg r) ∧
  ∀ (s t u v : State) (q r a b : Reg), s.val b = 0 →
    exec (.divrem q r a b) s = .next t → exec (.div q a b) s = .next u →
    exec (.mod r a b) s = .next v →
    t.status.err = 1 ∧ u.status.err = 1 ∧ v.status.err = 1 ∧ t.x = s.x ∧ u.x = s.x ∧ v.x = s.x

/-! ### The exponentiation engine -/

/-- 43_exponentiation.md R151: POW completes with x[rs1]^x[rs2] mod 2^W in rd and changes nothing else;
an exponent 0 gives 1 whatever the base. -/
def Obligations.PowWritesThePower : Prop :=
  ∀ (s : State) (rd rs1 rs2 : Reg), s.RegsWf →
    decode (wordOfFields 0x30 (fieldOfReg rd) (fieldOfReg rs1) (fieldOfReg rs2) 0) =
      .accept (.pow rd rs1 rs2) ∧
    ∃ t, exec (.pow rd rs1 rs2) s = .next t ∧
      s.WroteOne t rd (s.val rs1 ^ s.val rs2 % s.modulus)

/-- 43_exponentiation.md R152: POWS completes with x[rs1]^ARG mod 2^W in rd and changes nothing else. -/
def Obligations.PowsWritesTheScalarPower : Prop :=
  ∀ (s : State) (rd rs1 : Reg),
    decode (wordOfFields 0x31 (fieldOfReg rd) (fieldOfReg rs1) 0 0) = .accept (.pows rd rs1) ∧
    ∃ t, exec (.pows rd rs1) s = .next t ∧
      s.WroteOne t rd (s.val rs1 ^ s.arg.toNat % s.modulus)

/-- 43_exponentiation.md R150: PowCore computes a^e mod 2^W for every exponent of at most `bits` bits,
with a^0 = 1 for every a, and its loop has ended after `bits` iterations. -/
def Obligations.PowCoreIsThePower : Prop :=
  ∀ width bits a e : Nat, 0 < width → e < 2 ^ bits →
    powCore (2 ^ width) bits a e = a ^ e % 2 ^ width ∧
    powCore (2 ^ width) bits a 0 = 1 ∧
    ∀ fuel, bits ≤ fuel → powLoop (2 ^ width) fuel 1 a e = powLoop (2 ^ width) bits 1 a e

/-- 43_exponentiation.md R153, R154: POWS agrees with POW on equal exponents, exponent 0 gives 1,
exponent 1 gives the base, and exponents add under multiplication. -/
def Obligations.PowerLaws : Prop :=
  (∀ (s : State) (rd a e : Reg), s.val e = s.arg.toNat →
    exec (.pows rd a) s = exec (.pow rd a e) s) ∧
  (∀ (s t : State) (rd a e : Reg), s.val e = 0 → exec (.pow rd a e) s = .next t → t.val rd = 1) ∧
  (∀ (s t : State) (rd a e : Reg), s.RegsWf → s.val e = 1 → exec (.pow rd a e) s = .next t →
    t.reg rd = s.reg a) ∧
  ∀ (s t u v w : State) (rd re a m n mn : Reg), s.RegsWf → s.val mn = s.val m + s.val n →
    rd ≠ a → rd ≠ n → re ≠ rd →
    exec (.pow rd a mn) s = .next w →
    exec (.pow rd a m) s = .next t → exec (.pow re a n) t = .next u →
    exec (.mul rd rd re) u = .next v → v.reg rd = w.reg rd

/-! ### The comparator and primitives -/

/-- 44_primitives.md R160: CMP completes with LT and GT set by unsigned magnitude, both 0 for equal
operands, and changes no register and no other flag. -/
def Obligations.CmpComparesMagnitudes : Prop :=
  ∀ (s : State) (rs1 rs2 : Reg),
    decode (wordOfFields 0x40 0 (fieldOfReg rs1) (fieldOfReg rs2) 0) = .accept (.cmp rs1 rs2) ∧
    ∃ t, exec (.cmp rs1 rs2) s = .next t ∧ s.WroteNoReg t ∧
      (t.status.lt = true ↔ s.val rs1 < s.val rs2) ∧ (t.status.gt = true ↔ s.val rs2 < s.val rs1) ∧
      t.status.z = s.status.z ∧ t.status.odd = s.status.odd

/-- 44_primitives.md R161: TSTZ completes with Z = 1 exactly when the register is 0, that is when all its
words are, and changes no register and no other flag. -/
def Obligations.TstzTestsZero : Prop :=
  ∀ (s : State) (rs1 : Reg),
    decode (wordOfFields 0x41 0 (fieldOfReg rs1) 0 0) = .accept (.tstz rs1) ∧
    ∃ t, exec (.tstz rs1) s = .next t ∧ s.WroteNoReg t ∧
      (t.status.z = true ↔ s.val rs1 = 0) ∧ (t.status.z = true ↔ ∀ w ∈ s.reg rs1, w = 0) ∧
      t.status.odd = s.status.odd ∧ t.status.lt = s.status.lt ∧ t.status.gt = s.status.gt

/-- 44_primitives.md R162: TSTO completes with ODD the bit 0 of the register, and changes no register and
no other flag. -/
def Obligations.TstoTestsBitZero : Prop :=
  ∀ (s : State) (rs1 : Reg),
    decode (wordOfFields 0x42 0 (fieldOfReg rs1) 0 0) = .accept (.tsto rs1) ∧
    ∃ t, exec (.tsto rs1) s = .next t ∧ s.WroteNoReg t ∧
      (t.status.odd = true ↔ s.val rs1 % 2 = 1) ∧
      t.status.z = s.status.z ∧ t.status.lt = s.status.lt ∧ t.status.gt = s.status.gt

/-- 44_primitives.md R163: NEG completes with (2^W − x[rs1]) mod 2^W in rd and changes nothing else. -/
def Obligations.NegWritesTheNegation : Prop :=
  ∀ (s : State) (rd rs1 : Reg), s.RegsWf →
    decode (wordOfFields 0x43 (fieldOfReg rd) (fieldOfReg rs1) 0 0) = .accept (.neg rd rs1) ∧
    ∃ t, exec (.neg rd rs1) s = .next t ∧
      s.WroteOne t rd ((s.modulus - s.val rs1) % s.modulus)

/-- 44_primitives.md R164: NOT completes with 2^W − 1 − x[rs1] in rd, every word complemented, and
changes nothing else. -/
def Obligations.NotWritesTheComplement : Prop :=
  ∀ (s : State) (rd rs1 : Reg), s.RegsWf →
    decode (wordOfFields 0x44 (fieldOfReg rd) (fieldOfReg rs1) 0 0) = .accept (.not rd rs1) ∧
    ∃ t, exec (.not rd rs1) s = .next t ∧
      s.WroteOne t rd (s.modulus - 1 - s.val rs1) ∧
      ∀ i, i < s.cfg.numWords →
        (wordAt (t.reg rd) i).toNat = 2 ^ 64 - 1 - (wordAt (s.reg rs1) i).toNat

/-- 44_primitives.md R165: SHL1 completes with (2·x[rs1]) mod 2^W in rd: bit 63 of word i becomes bit 0
of word i+1, bit 0 of word 0 is 0; nothing else changes. -/
def Obligations.Shl1DoublesWordByWord : Prop :=
  ∀ (s : State) (rd rs1 : Reg),
    decode (wordOfFields 0x45 (fieldOfReg rd) (fieldOfReg rs1) 0 0) = .accept (.shl1 rd rs1) ∧
    ∃ t, exec (.shl1 rd rs1) s = .next t ∧
      s.WroteOne t rd (2 * s.val rs1 % s.modulus) ∧
      (wordAt (t.reg rd) 0).getLsbD 0 = false ∧
      (∀ i k, i < s.cfg.numWords → k < 63 →
        (wordAt (t.reg rd) i).getLsbD (k + 1) = (wordAt (s.reg rs1) i).getLsbD k) ∧
      ∀ i, i + 1 < s.cfg.numWords →
        (wordAt (t.reg rd) (i + 1)).getLsbD 0 = (wordAt (s.reg rs1) i).getLsbD 63

/-- 44_primitives.md R166: SHR1 completes with x[rs1] div 2 in rd: bit 0 of word i+1 becomes bit 63 of
word i, bit 63 of the top word is 0; nothing else changes. -/
def Obligations.Shr1HalvesWordByWord : Prop :=
  ∀ (s : State) (rd rs1 : Reg), s.RegsWf →
    decode (wordOfFields 0x46 (fieldOfReg rd) (fieldOfReg rs1) 0 0) = .accept (.shr1 rd rs1) ∧
    ∃ t, exec (.shr1 rd rs1) s = .next t ∧
      s.WroteOne t rd (s.val rs1 / 2) ∧
      (wordAt (t.reg rd) (s.cfg.numWords - 1)).getLsbD 63 = false ∧
      (∀ i k, i < s.cfg.numWords → k < 63 →
        (wordAt (t.reg rd) i).getLsbD k = (wordAt (s.reg rs1) i).getLsbD (k + 1)) ∧
      ∀ i, i + 1 < s.cfg.numWords →
        (wordAt (t.reg rd) i).getLsbD 63 = (wordAt (s.reg rs1) (i + 1)).getLsbD 0

/-! ### Data movement -/

/-- 45_data_movement.md R180: MOV completes with x[rs1] in rd and changes nothing else. -/
def Obligations.MovCopies : Prop :=
  ∀ (s : State) (rd rs1 : Reg), s.RegsWf →
    decode (wordOfFields 0x50 (fieldOfReg rd) (fieldOfReg rs1) 0 0) = .accept (.mov rd rs1) ∧
    ∃ t, exec (.mov rd rs1) s = .next t ∧ t.reg rd = s.reg rs1 ∧ s.WroteOne t rd (s.val rs1)

/-- 45_data_movement.md R181: CLR completes with every word of rd 0 and changes nothing else. -/
def Obligations.ClrClears : Prop :=
  ∀ (s : State) (rd : Reg),
    decode (wordOfFields 0x51 (fieldOfReg rd) 0 0 0) = .accept (.clr rd) ∧
    ∃ t, exec (.clr rd) s = .next t ∧ (∀ i, wordAt (t.reg rd) i = 0) ∧ s.WroteOne t rd 0

/-! ### The command lifecycle -/

/-- A step runs the decoded command: the CMD write of a legal word to the idle block is one step, which
latches the command it decodes to, and the core's turn is then exec of that command (30_encoding.md R92,
R94). Two clauses are the model's choice: that the core has its turn where the inbox is empty
(notes/assumptions/3.md), and that withFetchWord prepares that turn (notes/assumptions/5.md). -/
def Obligations.StepRunsTheDecodedCommand : Prop :=
  (∀ (s : State) (v : Word) (i : Instr) (rest : List Event), s.status.busy = false →
    decode v = .accept i → s.inbox = .access (memWrite s.cfg 0x10 v) :: .core :: rest →
    ∃ t, step s = .next t ∧
      t = { s with pend := some i, status := { s.status with busy := true },
                   inbox := .core :: rest, reply := some .ack } ∧
      step t = exec i { t with inbox := rest }) ∧
  (∀ (s : State) (i : Instr) (rest : List Event), s.status.busy = true → s.pend = some i →
    (s.inbox = .core :: rest → step s = exec i { s with inbox := rest }) ∧
    (s.inbox = [] → step s = exec i s)) ∧
  ∀ (s : State) (v : Word) (i : Instr), decode v = .accept i →
    step (s.withFetchWord 64 v.toNat) =
      exec i { s with pend := some i, status := { s.status with busy := true } }

/-- 30_encoding.md R92: a write to CMD is dropped while BUSY = 1, setting OVR alone; otherwise an illegal
word changes ERR alone, and a legal word PEND and BUSY alone. -/
def Obligations.CommandWriteOutcomes : Prop :=
  ∀ (s : State) (v : Word) (rest : List Event),
    s.inbox = .access (memWrite s.cfg 0x10 v) :: rest →
    (s.status.busy = true →
      step s = .next { s with status := { s.status with ovr := true }, inbox := rest,
                              reply := some .ack }) ∧
    (s.status.busy = false → ∀ r, decode v = .reject r →
      step s = .next { s with status := { s.status with err := r.code }, inbox := rest,
                              reply := some .ack }) ∧
    (s.status.busy = false → ∀ c, decode v = .accept c →
      step s = .next { s with pend := some c, status := { s.status with busy := true },
                              inbox := rest, reply := some .ack })

/-! ### The register window -/

/-- 20_memory.md R52, R56, R58: what each offset reads as, and what a write to it does while the block is
idle (and, for ID, STATUS and reserved offsets, at any time). -/
def Obligations.RegisterWindowMap : Prop :=
  ∀ s : State,
    (s.ReadsAs 0x00 (idWord s.cfg) ∧ ∀ v, s.WriteGives 0x00 v s) ∧
    (s.ReadsAs 0x08 s.status.toWord ∧ ∀ v, s.WriteGives 0x08 v
      { s with status := { s.status with ovr := s.status.ovr && !(v.getLsbD 12) } }) ∧
    (s.ReadsAs 0x10 0 ∧ ∀ v, s.WriteGives 0x10 v (s.offer v)) ∧
    (s.ReadsAs 0x18 s.arg ∧
      (s.status.busy = false → ∀ v, s.WriteGives 0x18 v { s with arg := v })) ∧
    (∀ (r : Reg) (i : Nat), i < s.cfg.numWords →
      s.ReadsAs (0x10000 + 0x1000 * r.val + 8 * i) (wordAt (s.reg r) i) ∧
      (s.status.busy = false → ∀ v, s.WriteGives (0x10000 + 0x1000 * r.val + 8 * i) v
        (s.setReg r ((s.reg r).set i v)))) ∧
    (∀ off, reservedOffset s.cfg off → s.ReadsAs off 0 ∧ ∀ v, s.WriteGives off v s) ∧
    ∀ (r : Reg) (i : Nat), s.cfg.numWords ≤ i → i < 512 →
      reservedOffset s.cfg (0x10000 + 0x1000 * r.val + 8 * i)

/-- 20_memory.md R59: while BUSY = 1 a write to CMD, ARG or an operand word changes nothing but OVR, and
a dropped CMD word is not decoded; writes to STATUS, ID and reserved offsets act as ever; and no host
access at all changes a register or ARG. -/
def Obligations.BusyDropsWrites : Prop :=
  ∀ s : State, s.status.busy = true → ∀ v : Word,
    (s.WriteGives 0x10 v { s with status := { s.status with ovr := true } } ∧
      s.WriteGives 0x18 v { s with status := { s.status with ovr := true } } ∧
      ∀ (r : Reg) (i : Nat), i < s.cfg.numWords →
        s.WriteGives (opwOffset r i) v { s with status := { s.status with ovr := true } }) ∧
    s.WriteGives 0x00 v s ∧
    s.WriteGives 0x08 v
      { s with status := { s.status with ovr := s.status.ovr && !(v.getLsbD 12) } } ∧
    (∀ off, reservedOffset s.cfg off → s.WriteGives off v s) ∧
    ∀ a : Access, (s.access a).x = s.x ∧ (s.access a).arg = s.arg

/-- 20_memory.md R60 and R59's consequence, 30_encoding.md R93: an accepted command leaves what every
offset but STATUS reads as, STATUS shows BUSY and its old fields; and while a command is pending no host
access, of any kind, changes a register, ARG, PEND, BUSY, ERR or a flag. -/
def Obligations.PendingCommandIsUndisturbed : Prop :=
  (∀ (s : State) (c : Instr) (off : Nat), s.status.busy = false → off < 0x20000 → off % 8 = 0 →
    (off ≠ 0x08 → ∀ w, s.ReadsAs off w → (s.latch c).ReadsAs off w) ∧
    (s.latch c).ReadsAs 0x08 (s.status.toWord ||| 1)) ∧
  ∀ (s : State) (a : Access), s.status.busy = true →
    (s.access a).x = s.x ∧ (s.access a).arg = s.arg ∧ (s.access a).pend = s.pend ∧
    (s.access a).status.busy = true ∧ (s.access a).status.err = s.status.err ∧
    s.SameFlags (s.access a)

/-- 20_memory.md R57: an access of the region that is not 8 bytes wide with every lane enabled at an
8-byte-aligned offset gets a bus error, returns 0 if it is a read, and changes no state. -/
def Obligations.UnsupportedAccessChangesNothing : Prop :=
  ∀ (s : State) (a : Access), s.cfg.base ≤ a.addr → a.addr < s.cfg.base + 0x20000 →
    (a.size ≠ 8 ∨ a.lanes ≠ 0xFF ∨ (a.addr - s.cfg.base) % 8 ≠ 0) →
    (a.dir = .read → s.access a = { s with reply := some (.readError 0) }) ∧
    (∀ v, a.dir = .write v → s.access a = { s with reply := some .writeError })

/-- 20_memory.md R51: an access outside the region is not the block's and changes none of its state. That
the model answers it with notSelected is its own choice (notes/assumptions/7.md). -/
def Obligations.AccessOutsideTheRegionIsIgnored : Prop :=
  ∀ (s : State) (a : Access), (a.addr < s.cfg.base ∨ s.cfg.base + 0x20000 ≤ a.addr) →
    s.SameArch (s.access a) ∧ (s.access a).reply = some .notSelected

/-- 20_memory.md R58: a read, of any address and width, changes no state of the block and is
idempotent. -/
def Obligations.ReadsHaveNoSideEffects : Prop :=
  ∀ (s : State) (a : Access), a.dir = .read →
    s.SameArch (s.access a) ∧ (s.access a).access a = s.access a

/-- 20_memory.md R53: a read of OPW(r, i) returns word i of x[r]; a write of v to it of the idle block
sets that word to v, so that x[r] becomes x[r] − word(x[r], i)·2^(64i) + v·2^(64i), the word reads back
as v, and every other word and register is unchanged. -/
def Obligations.OperandWordWriteReadsBack : Prop :=
  (∀ (s : State) (r : Reg) (i : Nat), i < s.cfg.numWords →
    s.ReadsAs (opwOffset r i) (wordAt (s.reg r) i)) ∧
  ∀ (s : State) (r : Reg) (i : Nat) (v : Word), s.RegsWf → s.status.busy = false →
    i < s.cfg.numWords →
    ∃ t, t = s.access (memWrite s.cfg (opwOffset r i) v) ∧ t.RegsWf ∧
      t.val r = s.val r - (wordAt (s.reg r) i).toNat * 2 ^ (64 * i) + v.toNat * 2 ^ (64 * i) ∧
      t.ReadsAs (opwOffset r i) v ∧
      (∀ j, j ≠ i → wordAt (t.reg r) j = wordAt (s.reg r) j) ∧
      (∀ r', r' ≠ r → t.reg r' = s.reg r') ∧
      t.arg = s.arg ∧ t.status = s.status ∧ t.pend = s.pend ∧ t.cfg = s.cfg

/-- 20_memory.md R54, R55: byte k of a read of OPW(r, i) carries bits 8k+7 : 8k of the word, and the
words of a register, in the order of their offsets, are the little-endian byte image of its value. -/
def Obligations.RegisterWindowIsLittleEndian : Prop :=
  ∀ (s : State) (r : Reg) (i k : Nat), i < s.cfg.numWords → k < 8 →
    ∃ w, s.ReadsAs (0x10000 + 0x1000 * r.val + 8 * i) w ∧
      (laneByte w k).toNat = w.toNat / 2 ^ (8 * k) % 2 ^ 8 ∧
      w.toNat = s.val r / 2 ^ (64 * i) % 2 ^ 64 ∧
      (laneByte w k).toNat = s.val r / 2 ^ (8 * (8 * i + k)) % 2 ^ 8

/-- 10_state.md R24: each field of STATUS is at its bits of the word a read returns, the reserved bits
read 0, and a host write clears OVR where bit 12 is 1 and does nothing else, busy or not. -/
def Obligations.StatusWordAndWrite : Prop :=
  ∀ s : State,
    s.ReadsAs 0x08 s.status.toWord ∧
    s.status.toWord.getLsbD 0 = s.status.busy ∧ s.status.toWord.getLsbD 1 = s.status.z ∧
    s.status.toWord.getLsbD 2 = s.status.odd ∧ s.status.toWord.getLsbD 3 = s.status.lt ∧
    s.status.toWord.getLsbD 4 = s.status.gt ∧ s.status.toWord.extractLsb' 5 3 = 0 ∧
    s.status.toWord.extractLsb' 8 4 = s.status.err ∧ s.status.toWord.getLsbD 12 = s.status.ovr ∧
    s.status.toWord.extractLsb' 13 51 = 0 ∧ (State.resetOf s.cfg).status.toWord = 0 ∧
    ∀ v : Word,
      (v.getLsbD 12 = true →
        s.WriteGives 0x08 v { s with status := { s.status with ovr := false } }) ∧
      (v.getLsbD 12 = false → s.WriteGives 0x08 v s)

/-- 10_state.md R29: the fields of ID, that a host write to it is ignored, and that no step, a reset among
them, changes it. -/
def Obligations.IdIsConstant : Prop :=
  (∀ s : State, s.ReadsAs 0x00 (idWord s.cfg) ∧
    ((idWord s.cfg).extractLsb' 0 16).toNat = s.cfg.numWords ∧
    1 ≤ s.cfg.numWords ∧ s.cfg.numWords ≤ 512 ∧
    (idWord s.cfg).extractLsb' 16 8 = 8 ∧ (idWord s.cfg).extractLsb' 24 8 = 0x01 ∧
    (idWord s.cfg).extractLsb' 32 32 = 0x4D504131 ∧ ∀ v, s.WriteGives 0x00 v s) ∧
  ∀ s t : State, step s = .next t → t.cfg = s.cfg ∧ t.peek .id = s.peek .id

/-! ### Rules of the whole machine -/

/-- The invariant of the block (10_state.md R21, R27, R28, R31) is kept by every step, from every state
that meets it. -/
def Obligations.EveryStepKeepsTheInvariant : Prop :=
  ∀ s t : State, s.Inv → step s = .next t → t.Inv

/-- The invariant holds right after reset, whatever the instance, and CleanEntry does too
(70_reset_and_hazards.md R232). That State.reset is the reset state of the instance W = 128, BASE = 0 is
the model's choice (notes/assumptions/1.md). -/
def Obligations.ResetMeetsTheInvariant : Prop :=
  (∀ cfg : Config, (State.resetOf cfg).Inv ∧ (State.resetOf cfg).CleanEntry) ∧
    State.reset = State.resetOf Config.standard

/-- The block never stops (60_exceptions.md R200): from a state that meets the invariant every step has a
next state, but where a host access overlaps the reset step, which the model refuses
(70_reset_and_hazards.md R222). Outside the invariant the model's own stops, which are its choice and no
run reaches, are these two: the turn of a busy core with an empty latch, whether it stands in the inbox
or the inbox is empty (notes/assumptions/3.md), and a DIVREM with RD = RD2 (notes/assumptions/6.md). -/
def Obligations.WhereTheMachineStops : Prop :=
  (∀ s : State, s.Inv →
    (∃ t, step s = .next t) ∨
    (∃ a rest, s.inbox = .accessInReset a :: rest ∧ step s = .refused .accessDuringReset)) ∧
  (∀ s : State, s.status.busy = true → s.pend = none →
    (s.inbox = [] ∨ s.inbox.head? = some .core) → step s = .fault .emptyLatch) ∧
  ∀ (s : State) (r rs1 rs2 : Reg), exec (.divrem r r rs1 rs2) s = .refused (.aliasedPair "DIVREM")

/-- A completion writes no register but the command's destinations, and never ARG, OVR or the
configuration (10_state.md R22, R23). -/
def Obligations.CompletionWritesOnlyDestinations : Prop :=
  ∀ (i : Instr) (s t : State), exec i s = .next t →
    (∀ r, r ∉ destsOf i → t.reg r = s.reg r) ∧ s.SameRest t

/-- A completion depends on nothing but the command's source registers and, for ADDS, SUBS and POWS, ARG
(10_state.md R22, R23): from two states that agree on these it ends with the same outcome code, on
success with the same values in its destinations, and with the same flags where they were the same. -/
def Obligations.CompletionReadsOnlySources : Prop :=
  ∀ (i : Instr) (s u t w : State), s.cfg = u.cfg → (∀ r ∈ sourcesOf i, s.reg r = u.reg r) →
    (readsArg i = true → s.arg = u.arg) → exec i s = .next t → exec i u = .next w →
    t.status.err = w.status.err ∧
    (t.status.err = 0 → ∀ r ∈ destsOf i, t.reg r = w.reg r) ∧
    (s.SameFlags u → t.SameFlags w)

/-- 10_state.md R25: BUSY goes from 0 to 1 only when a command is accepted, and from 1 to 0 only when it
completes or on reset, and it does then; a rejected command leaves it 0. -/
def Obligations.BusyChangesOnlyThere : Prop :=
  ∀ s t : State, step s = .next t →
    (s.status.busy = false → t.status.busy = true →
      ∃ v c, s.HostWrites 0x10 v ∧ decode v = .accept c ∧ t.pend = some c) ∧
    (s.status.busy = true → t.status.busy = false → s.Resets ∨ ∃ i, s.Completes i) ∧
    (∀ i, s.Completes i → t.status.busy = false) ∧ (s.Resets → t.status.busy = false) ∧
    (∀ v, s.HostWrites 0x10 v → s.status.busy = false →
      (t.status.busy = true ↔ ∃ c, decode v = .accept c))

/-- 10_state.md R26, R27: TSTZ writes Z, TSTO writes ODD, CMP writes LT and GT, each with its own test's
result, and reset clears all four; across every other step, another command's completion, a rejection, a
failed division and every host access among them, they keep their values. -/
def Obligations.FlagsChangeOnlyByTheirTest : Prop :=
  ∀ s t : State, step s = .next t →
    (t.status.z ≠ s.status.z → s.Resets ∨ ∃ r, s.Completes (.tstz r)) ∧
    (t.status.odd ≠ s.status.odd → s.Resets ∨ ∃ r, s.Completes (.tsto r)) ∧
    (t.status.lt ≠ s.status.lt ∨ t.status.gt ≠ s.status.gt →
      s.Resets ∨ ∃ a b, s.Completes (.cmp a b)) ∧
    (∀ r, s.Completes (.tstz r) → t.status.z = decide (s.val r = 0)) ∧
    (∀ r, s.Completes (.tsto r) → t.status.odd = (s.val r).testBit 0) ∧
    (∀ a b, s.Completes (.cmp a b) → t.status.lt = decide (s.val a < s.val b) ∧
      t.status.gt = decide (s.val b < s.val a)) ∧
    (s.Resets → t.status.z = false ∧ t.status.odd = false ∧ t.status.lt = false ∧
      t.status.gt = false)

/-- 10_state.md R28: ERR is written only by a completion, a rejection or reset, with the code the command
produced, 0 for a success and never above 5; OVR is set by a dropped write and by nothing else, and
cleared by a 1 written to its bit or by reset and by nothing else. -/
def Obligations.ErrAndOvrChangeOnlyThere : Prop :=
  ∀ s t : State, step s = .next t →
    (t.status.err ≠ s.status.err →
      s.Resets ∨ (∃ i, s.Completes i) ∨
      ∃ v r, s.HostWrites 0x10 v ∧ s.status.busy = false ∧ decode v = .reject r) ∧
    (∀ i, s.Completes i → t.status.err = 0 ∨
      t.status.err = 1 ∧ ∃ r, divisorOf i = some r ∧ s.val r = 0) ∧
    (∀ v r, s.HostWrites 0x10 v → s.status.busy = false → decode v = .reject r →
      t.status.err = r.code ∧ t.status.err.toNat ≤ 5) ∧
    (s.status.ovr = false → t.status.ovr = true →
      s.status.busy = true ∧
      ∃ off v, s.HostWrites off v ∧
        (off = 0x10 ∨ off = 0x18 ∨ ∃ r i, i < s.cfg.numWords ∧ off = opwOffset r i)) ∧
    (∀ off v, s.HostWrites off v → s.status.busy = true →
      (off = 0x10 ∨ off = 0x18 ∨ ∃ r i, i < s.cfg.numWords ∧ off = opwOffset r i) →
      t.status.ovr = true) ∧
    (s.status.ovr = true → t.status.ovr = false →
      s.Resets ∨ ∃ v, s.HostWrites 0x08 v ∧ v.getLsbD 12 = true) ∧
    (∀ v, s.HostWrites 0x08 v → v.getLsbD 12 = true → t.status.ovr = false)

/-- Only a host write or reset changes ARG (10_state.md R23), and only a completion that names the
register, a host write to one of its words, or reset changes a register (70_reset_and_hazards.md
R230). -/
def Obligations.RegistersChangeOnlyThere : Prop :=
  ∀ s t : State, step s = .next t →
    (t.arg ≠ s.arg →
      s.Resets ∨ ∃ v, s.HostWrites 0x18 v ∧ s.status.busy = false ∧ t.arg = v) ∧
    ∀ r, t.reg r ≠ s.reg r →
      s.Resets ∨ (∃ i, s.Completes i ∧ r ∈ destsOf i) ∨
      ∃ k v, k < s.cfg.numWords ∧ s.HostWrites (opwOffset r k) v ∧ s.status.busy = false ∧
        t.reg r = (s.reg r).set k v

/-- Every run comes to its end (70_reset_and_hazards.md R227, R231): from a state that meets the
invariant, with no access that overlaps a reset, the run ends at the first state in which the host has
no access left and BUSY = 0, within one step more than there are events; a run that is over takes no
further step, so a reset that may still come does not touch its final state, and any other step leaves
that state as it is; and if the steps go on, every event is met and the block is idle. R227 says only
that a completion eventually happens; that it happens at the latest in that last step, because the core
has its turn where the inbox is empty, is the model's choice (notes/assumptions/3.md). -/
def Obligations.EveryRunEndsIdle : Prop :=
  (∀ s : State, s.Inv → (∀ a, Event.accessInReset a ∉ s.inbox) →
    (∃ t n, runToEnd (s.inbox.length + 1) s = .next t ∧ t.RunOver ∧ t.Inv ∧
      n ≤ s.inbox.length + 1 ∧ runSteps n s = .next t ∧
      ∀ m u, m < n → runSteps m s = .next u → ¬u.RunOver) ∧
    ∃ t, runSteps (s.inbox.length + 1) s = .next t ∧ t.inbox = [] ∧ t.RunOver ∧ t.Inv) ∧
  ∀ s : State, s.RunOver →
    (∀ n, runToEnd n s = .next s) ∧ ∀ t, step s = .next t → ¬s.Resets → t.final = s.final

/-- 30_encoding.md R98: the pseudo-instructions LI, INC, SQR, DBL and HALF, run as their host sequences on
an idle block with any number of polls in each WAIT, have the results the rule gives and leave every
other register. That the accesses arrive in the order written is the model's choice, unsafe for a host
that reorders (notes/assumptions/10.md); so is where the core's turn stands among the polls
(notes/assumptions/3.md). -/
def Obligations.HostSequencesHaveTheirResults : Prop :=
  ∀ (s : State) (polls : Nat) (rd rs : Reg), s.RegsWf → s.status.busy = false →
    (∀ (polls' : Nat) (imm : Word), ∃ t,
      runEvents s (pseudoLi s.cfg polls polls' rd imm) = .next t ∧ t.inbox = [] ∧ t.RunOver ∧
      t.val rd = imm.toNat ∧ ∀ r, r ≠ rd → t.reg r = s.reg r) ∧
    (∃ t, runEvents s (pseudoInc s.cfg polls rd rs) = .next t ∧ t.inbox = [] ∧ t.RunOver ∧
      t.val rd = (s.val rs + 1) % s.modulus ∧ ∀ r, r ≠ rd → t.reg r = s.reg r) ∧
    (∃ t, runEvents s (pseudoSqr s.cfg polls rd rs) = .next t ∧ t.inbox = [] ∧ t.RunOver ∧
      t.val rd = s.val rs ^ 2 % s.modulus ∧ ∀ r, r ≠ rd → t.reg r = s.reg r) ∧
    (∃ t, runEvents s (pseudoDbl s.cfg polls rd rs) = .next t ∧ t.inbox = [] ∧ t.RunOver ∧
      t.val rd = 2 * s.val rs % s.modulus ∧ ∀ r, r ≠ rd → t.reg r = s.reg r) ∧
    ∃ t, runEvents s (pseudoHalf s.cfg polls rd rs) = .next t ∧ t.inbox = [] ∧ t.RunOver ∧
      t.val rd = s.val rs / 2 ∧ ∀ r, r ≠ rd → t.reg r = s.reg r

end
end

