-- ==== Sys2Proof/Laws/Decode.lean ====
section
/-! SUPPORT. The fields of a word made from fields (30_encoding.md R81), and a register through its
4-bit field (R82). -/

namespace Sys2Proof

section Fields
variable (opc : BitVec 8) (rd rs1 rs2 rd2 : BitVec 4)

/-- The parts of a word made from fields, at every bit. -/
theorem getLsbD_wordOfFields (k : Nat) :
    (wordOfFields opc rd rs1 rs2 rd2).getLsbD k =
      if k < 8 then opc.getLsbD k
      else if k < 12 then rd.getLsbD (k - 8)
      else if k < 16 then rs1.getLsbD (k - 12)
      else if k < 20 then rs2.getLsbD (k - 16)
      else if k < 24 then rd2.getLsbD (k - 20)
      else false := by
  simp only [wordOfFields, BitVec.getLsbD_append, BitVec.getLsbD_zero]
  repeat' split
  all_goals first | rfl | omega

@[simp] theorem opcField_wordOfFields : opcField (wordOfFields opc rd rs1 rs2 rd2) = opc := by
  refine BitVec.eq_of_getLsbD_eq fun i hi => ?_
  simp [opcField, getLsbD_wordOfFields, hi]

@[simp] theorem rdField_wordOfFields : rdField (wordOfFields opc rd rs1 rs2 rd2) = rd := by
  refine BitVec.eq_of_getLsbD_eq fun i hi => ?_
  simp [rdField, getLsbD_wordOfFields, hi, show 8 + i < 12 by omega]

@[simp] theorem rs1Field_wordOfFields : rs1Field (wordOfFields opc rd rs1 rs2 rd2) = rs1 := by
  refine BitVec.eq_of_getLsbD_eq fun i hi => ?_
  simp [rs1Field, getLsbD_wordOfFields, hi, show ¬ 12 + i < 8 by omega, show 12 + i < 16 by omega]

@[simp] theorem rs2Field_wordOfFields : rs2Field (wordOfFields opc rd rs1 rs2 rd2) = rs2 := by
  refine BitVec.eq_of_getLsbD_eq fun i hi => ?_
  simp [rs2Field, getLsbD_wordOfFields, hi, show ¬ 16 + i < 8 by omega, show ¬ 16 + i < 12 by omega,
    show 16 + i < 20 by omega]

@[simp] theorem rd2Field_wordOfFields : rd2Field (wordOfFields opc rd rs1 rs2 rd2) = rd2 := by
  refine BitVec.eq_of_getLsbD_eq fun i hi => ?_
  simp [rd2Field, getLsbD_wordOfFields, hi, show ¬ 20 + i < 8 by omega, show ¬ 20 + i < 12 by omega,
    show ¬ 20 + i < 16 by omega, show 20 + i < 24 by omega]

@[simp] theorem reservedField_wordOfFields :
    reservedField (wordOfFields opc rd rs1 rs2 rd2) = 0#40 := by
  refine BitVec.eq_of_getLsbD_eq fun i hi => ?_
  simp [reservedField, getLsbD_wordOfFields, hi, show ¬ 24 + i < 8 by omega,
    show ¬ 24 + i < 12 by omega, show ¬ 24 + i < 16 by omega, show ¬ 24 + i < 20 by omega]

end Fields

/-- A word whose reserved bits are 0 is the word made from its fields (R81). -/
theorem wordOfFields_fields (v : Word) (h : reservedField v = 0#40) :
    wordOfFields (opcField v) (rdField v) (rs1Field v) (rs2Field v) (rd2Field v) = v := by
  refine BitVec.eq_of_getLsbD_eq fun i hi => ?_
  rw [getLsbD_wordOfFields]
  have hr : ¬ i < 24 → v.getLsbD i = false := fun hge => by
    have := congrArg (fun w : BitVec 40 => w.getLsbD (i - 24)) h
    simpa [reservedField, show i - 24 < 40 by omega, show 24 + (i - 24) = i by omega] using this
  split_ifs with h8 h12 h16 h20 h24
  · simp [opcField, h8]
  · simp [rdField, show i - 8 < 4 by omega, show 8 + (i - 8) = i by omega]
  · simp [rs1Field, show i - 12 < 4 by omega, show 12 + (i - 12) = i by omega]
  · simp [rs2Field, show i - 16 < 4 by omega, show 16 + (i - 16) = i by omega]
  · simp [rd2Field, show i - 20 < 4 by omega, show 20 + (i - 20) = i by omega]
  · exact (hr h24).symm

/-- A register number survives its 4-bit field (R82). -/
@[simp] theorem regOfField_fieldOfReg (r : Reg) : regOfField (fieldOfReg r) = r := by
  revert r; decide

/-- A legal field survives the register it names (R82). -/
theorem fieldOfReg_regOfField (f : BitVec 4) (h : f.toNat < 8) : fieldOfReg (regOfField f) = f := by
  revert f; decide

/-- A register's field is legal (R82). -/
theorem fieldOfReg_toNat_lt (r : Reg) : (fieldOfReg r).toNat < 8 := by
  revert r; decide

@[simp] theorem fieldOfReg_inj (r r' : Reg) : fieldOfReg r = fieldOfReg r' ↔ r = r' := by
  revert r r'; decide

end Sys2Proof
end

