-- ==== Sys2Proof/Laws/Operands.lean ====
section
/-! SUPPORT. Values and words (00_scope.md R10): the bounds, the two round trips, the word of a value,
and the lengths of the word-serial operations. -/

namespace Sys2Proof.Machine

/-- A value of n words is below 2^(64n) (R10, 10_state.md R21). -/
theorem valueOf_lt (ws : Words) : valueOf ws < 2 ^ (64 * ws.length) := by
  induction ws with
  | nil => simp [valueOf]
  | cons w ws ih =>
    have hw : w.toNat < 2 ^ 64 := w.isLt
    have he : (2 : Nat) ^ (64 * (w :: ws).length) = 2 ^ 64 * 2 ^ (64 * ws.length) := by
      rw [← pow_add]; congr 1; simp; ring
    rw [he, valueOf]
    nlinarith

@[simp] theorem wordsOf_length (n v : Nat) : (wordsOf n v).length = n := by
  induction n generalizing v with
  | zero => rfl
  | succ n ih => simp [wordsOf, ih]

/-- Writing a value as n words reduces it mod 2^(64n) (R11). -/
@[simp] theorem valueOf_wordsOf (n v : Nat) : valueOf (wordsOf n v) = v % 2 ^ (64 * n) := by
  induction n generalizing v with
  | zero => simp [valueOf, wordsOf, Nat.mod_one]
  | succ n ih =>
    have he : (2 : Nat) ^ (64 * (n + 1)) = 2 ^ 64 * 2 ^ (64 * n) := by
      rw [← pow_add]; congr 1; ring
    rw [wordsOf, valueOf, ih, he, BitVec.toNat_ofNat, Nat.mod_mul]

/-- The words of an operand are those of its value. -/
@[simp] theorem wordsOf_valueOf (ws : Words) : wordsOf ws.length (valueOf ws) = ws := by
  induction ws with
  | nil => rfl
  | cons w ws ih =>
    have hw : w.toNat < 2 ^ 64 := w.isLt
    have hd : (w.toNat + 2 ^ 64 * valueOf ws) / 2 ^ 64 = valueOf ws := by omega
    have hm : BitVec.ofNat 64 (w.toNat + 2 ^ 64 * valueOf ws) = w := by
      apply BitVec.eq_of_toNat_eq
      simp [BitVec.toNat_ofNat]
      omega
    simp only [List.length_cons, valueOf, wordsOf, hd, hm, ih]

/-- Two operands of one length and one value are one operand. -/
theorem eq_of_valueOf_eq {a b : Words} (hl : a.length = b.length) (hv : valueOf a = valueOf b) :
    a = b := by
  rw [← wordsOf_valueOf a, ← wordsOf_valueOf b, hl, hv]

@[simp] theorem zeroWords_length (n : Nat) : (zeroWords n).length = n := by simp [zeroWords]

@[simp] theorem valueOf_replicate_zero (n : Nat) : valueOf (List.replicate n 0#64) = 0 := by
  induction n with
  | zero => rfl
  | succ n ih => simp [List.replicate_succ, valueOf, ih]

@[simp] theorem valueOf_zeroWords (n : Nat) : valueOf (zeroWords n) = 0 := by simp [zeroWords]

/-- word(v, i) is v[64i+63 : 64i] (R10). -/
theorem wordAt_toNat (ws : Words) (i : Nat) :
    (wordAt ws i).toNat = valueOf ws / 2 ^ (64 * i) % 2 ^ 64 := by
  induction ws generalizing i with
  | nil => simp [wordAt, valueOf]
  | cons w ws ih =>
    have hw : w.toNat < 2 ^ 64 := w.isLt
    cases i with
    | zero => simp [wordAt, valueOf]; omega
    | succ i =>
      have he : (2 : Nat) ^ (64 * (i + 1)) = 2 ^ 64 * 2 ^ (64 * i) := by
        rw [← pow_add]; congr 1; ring
      have hd : (w.toNat + 2 ^ 64 * valueOf ws) / 2 ^ 64 = valueOf ws := by omega
      have hi := ih i
      simp only [wordAt, List.getD_cons_succ] at hi ⊢
      rw [hi, valueOf, he, ← Nat.div_div_eq_div_mul, hd]

@[simp] theorem addWords_length (c : Nat) (a b : Words) :
    (addWords c a b).length = min a.length b.length := by
  induction a generalizing b c with
  | nil => simp [addWords]
  | cons x xs ih =>
    cases b with
    | nil => simp [addWords]
    | cons y ys => simp [addWords, ih]

@[simp] theorem notWords_length (ws : Words) : (notWords ws).length = ws.length := by
  simp [notWords]

@[simp] theorem negWords_length (ws : Words) : (negWords ws).length = ws.length := by
  simp [negWords]

@[simp] theorem subWordZero_length (u : Word) (ws : Words) :
    (subWordZero u ws).length = ws.length := by
  cases ws <;> rfl

@[simp] theorem shlWords_length (c : Word) (ws : Words) : (shlWords c ws).length = ws.length := by
  induction ws generalizing c with
  | nil => rfl
  | cons w ws ih => simp [shlWords, ih]

@[simp] theorem shrWords_length (ws : Words) : (shrWords ws).length = ws.length := by
  induction ws with
  | nil => rfl
  | cons w ws ih => simp [shrWords, ih]

end Sys2Proof.Machine
end

