-- ==== Sys2Proof/Laws/State.lean ====
section
/-! SUPPORT. The fields of a state after each operation of Machine/Ops.lean, one lemma per field and
update, true by unfolding; and reading a register after a write (20_memory.md R53). -/

namespace Sys2Proof.Machine

section SetReg
variable (s : State) (r : Reg) (ws : Words)
@[simp] theorem State.setReg_cfg : (s.setReg r ws).cfg = s.cfg := rfl
@[simp] theorem State.setReg_x : (s.setReg r ws).x = s.x.set r.val ws := rfl
@[simp] theorem State.setReg_arg : (s.setReg r ws).arg = s.arg := rfl
@[simp] theorem State.setReg_status : (s.setReg r ws).status = s.status := rfl
@[simp] theorem State.setReg_pend : (s.setReg r ws).pend = s.pend := rfl
@[simp] theorem State.setReg_inbox : (s.setReg r ws).inbox = s.inbox := rfl
@[simp] theorem State.setReg_reply : (s.setReg r ws).reply = s.reply := rfl
end SetReg

section RaiseError
variable (s : State) (code : BitVec 4)
@[simp] theorem State.raiseError_cfg : (s.raiseError code).cfg = s.cfg := rfl
@[simp] theorem State.raiseError_x : (s.raiseError code).x = s.x := rfl
@[simp] theorem State.raiseError_arg : (s.raiseError code).arg = s.arg := rfl
@[simp] theorem State.raiseError_status : (s.raiseError code).status = { s.status with err := code } := rfl
@[simp] theorem State.raiseError_pend : (s.raiseError code).pend = s.pend := rfl
@[simp] theorem State.raiseError_inbox : (s.raiseError code).inbox = s.inbox := rfl
@[simp] theorem State.raiseError_reply : (s.raiseError code).reply = s.reply := rfl
end RaiseError

section Retire
variable (s : State) 
@[simp] theorem State.retire_cfg : s.retire.cfg = s.cfg := rfl
@[simp] theorem State.retire_x : s.retire.x = s.x := rfl
@[simp] theorem State.retire_arg : s.retire.arg = s.arg := rfl
@[simp] theorem State.retire_status : s.retire.status = { s.status with busy := false } := rfl
@[simp] theorem State.retire_pend : s.retire.pend = none := rfl
@[simp] theorem State.retire_inbox : s.retire.inbox = s.inbox := rfl
@[simp] theorem State.retire_reply : s.retire.reply = s.reply := rfl
end Retire

section Latch
variable (s : State) (c : Instr)
@[simp] theorem State.latch_cfg : (s.latch c).cfg = s.cfg := rfl
@[simp] theorem State.latch_x : (s.latch c).x = s.x := rfl
@[simp] theorem State.latch_arg : (s.latch c).arg = s.arg := rfl
@[simp] theorem State.latch_status : (s.latch c).status = { s.status with busy := true } := rfl
@[simp] theorem State.latch_pend : (s.latch c).pend = some c := rfl
@[simp] theorem State.latch_inbox : (s.latch c).inbox = s.inbox := rfl
@[simp] theorem State.latch_reply : (s.latch c).reply = s.reply := rfl
end Latch

section SetOvr
variable (s : State) 
@[simp] theorem State.setOvr_cfg : s.setOvr.cfg = s.cfg := rfl
@[simp] theorem State.setOvr_x : s.setOvr.x = s.x := rfl
@[simp] theorem State.setOvr_arg : s.setOvr.arg = s.arg := rfl
@[simp] theorem State.setOvr_status : s.setOvr.status = { s.status with ovr := true } := rfl
@[simp] theorem State.setOvr_pend : s.setOvr.pend = s.pend := rfl
@[simp] theorem State.setOvr_inbox : s.setOvr.inbox = s.inbox := rfl
@[simp] theorem State.setOvr_reply : s.setOvr.reply = s.reply := rfl
end SetOvr

section SetFlag
variable (s : State) (f : Flag) (b : Bool)
@[simp] theorem State.setFlag_cfg : (s.setFlag f b).cfg = s.cfg := rfl
@[simp] theorem State.setFlag_x : (s.setFlag f b).x = s.x := rfl
@[simp] theorem State.setFlag_arg : (s.setFlag f b).arg = s.arg := rfl
@[simp] theorem State.setFlag_status : (s.setFlag f b).status = s.status.setFlag f b := rfl
@[simp] theorem State.setFlag_pend : (s.setFlag f b).pend = s.pend := rfl
@[simp] theorem State.setFlag_inbox : (s.setFlag f b).inbox = s.inbox := rfl
@[simp] theorem State.setFlag_reply : (s.setFlag f b).reply = s.reply := rfl
end SetFlag

section ResetStep
variable (s : State) 
@[simp] theorem State.resetStep_cfg : s.resetStep.cfg = s.cfg := rfl
@[simp] theorem State.resetStep_x : s.resetStep.x = Vector.replicate 8 (List.replicate s.cfg.numWords 0) := rfl
@[simp] theorem State.resetStep_arg : s.resetStep.arg = 0 := rfl
@[simp] theorem State.resetStep_status : s.resetStep.status = Status.reset := rfl
@[simp] theorem State.resetStep_pend : s.resetStep.pend = none := rfl
@[simp] theorem State.resetStep_inbox : s.resetStep.inbox = s.inbox := rfl
@[simp] theorem State.resetStep_reply : s.resetStep.reply = none := rfl
end ResetStep

section Reg
variable (s : State) (r r' : Reg)

/-- A register reads back what was written to it. -/
@[simp] theorem State.reg_setReg_same (ws : Words) : (s.setReg r ws).reg r = ws := by
  simp [State.reg]

/-- A register write leaves every other register. -/
theorem State.reg_setReg_ne (ws : Words) (h : r' ≠ r) : (s.setReg r ws).reg r' = s.reg r' := by
  have hv : r.val ≠ r'.val := fun e => h (Fin.ext e.symm)
  simp [State.reg, hv]

/-- A register after a register write. -/
theorem State.reg_setReg (ws : Words) :
    (s.setReg r ws).reg r' = if r' = r then ws else s.reg r' := by
  split
  · next h => subst h; exact s.reg_setReg_same r' ws
  · next h => exact s.reg_setReg_ne r r' ws h

@[simp] theorem State.reg_raiseError (code : BitVec 4) : (s.raiseError code).reg r = s.reg r := rfl
@[simp] theorem State.reg_retire : s.retire.reg r = s.reg r := rfl
@[simp] theorem State.reg_latch (c : Instr) : (s.latch c).reg r = s.reg r := rfl
@[simp] theorem State.reg_setOvr : s.setOvr.reg r = s.reg r := rfl
@[simp] theorem State.reg_setFlag (f : Flag) (b : Bool) : (s.setFlag f b).reg r = s.reg r := rfl

/-- After reset every register holds N zero words (10_state.md R35). -/
@[simp] theorem State.reg_resetOf (cfg : Config) :
    (State.resetOf cfg).reg r = List.replicate cfg.numWords 0 := by
  simp [State.reg, State.resetOf]

@[simp] theorem State.reg_resetStep :
    s.resetStep.reg r = List.replicate s.cfg.numWords 0 := by
  simp [State.reg]

/-- Registers are a matter of the field x alone. -/
theorem State.reg_congr {s t : State} (h : t.x = s.x) (r : Reg) : t.reg r = s.reg r := by
  simp [State.reg, h]

/-- Two register files agree where every register does. -/
theorem State.x_ext {s t : State} (h : ∀ r, t.reg r = s.reg r) : t.x = s.x := by
  apply Vector.ext
  intro i hi
  exact h ⟨i, hi⟩

end Reg

section SetFlag
variable (st : Status) (f : Flag) (b : Bool)
@[simp] theorem Status.setFlag_busy : (st.setFlag f b).busy = st.busy := by cases f <;> rfl
@[simp] theorem Status.setFlag_err : (st.setFlag f b).err = st.err := by cases f <;> rfl
@[simp] theorem Status.setFlag_ovr : (st.setFlag f b).ovr = st.ovr := by cases f <;> rfl
end SetFlag

end Sys2Proof.Machine
end

