-- ==== Sys2Proof/Laws/Ops.lean ====
section
/-! SUPPORT. What each shared operation can do, once: a completion (30_encoding.md R94), a CMD write
(R92), a host access (20_memory.md R57 to R59), a step (R62), and a run (70_reset_and_hazards.md
R231). -/

namespace Sys2Proof.Machine

section Values
variable (s : State)

@[simp] theorem State.fit_length (v : Nat) : (s.fit v).length = s.cfg.numWords := by
  simp [State.fit]

/-- `fit` reduces mod 2^W. -/
@[simp] theorem State.valueOf_fit (v : Nat) : valueOf (s.fit v) = v % s.modulus := by
  simp [State.fit, State.modulus, Config.width]

theorem State.modulus_pos : 0 < s.modulus := Nat.two_pow_pos _

/-- W is at least 64 (00_scope.md R7). -/
theorem le_width (c : Config) : 64 ≤ c.width := by
  simp only [Config.width, Config.numWords]; omega

/-- A register of N words holds a value below 2^W (10_state.md R20). -/
theorem State.val_lt {s : State} (h : s.RegsWf) (r : Reg) : s.val r < s.modulus := by
  have := valueOf_lt (s.reg r)
  rwa [h r] at this

theorem State.val_congr {s t : State} {r : Reg} (h : t.reg r = s.reg r) : t.val r = s.val r := by
  simp [State.val, h]

end Values

section Commit
variable (s : State)

/-- A completion keeps the fields it never writes, empties PEND and clears BUSY (R94). -/
@[simp] theorem State.commit_fail (code : BitVec 4) :
    s.commit (.fail code) = (s.raiseError code).retire := rfl

/-- A completion that writes one register and no flag (R94): that register, ERR = 0, idle, and nothing
else. -/
theorem State.commit_one (rd : Reg) (ws : Words) (hl : ws.length = s.cfg.numWords) :
    s.WroteOne (s.commit (.done [(rd, ws)] [])) rd (valueOf ws) := by
  refine ⟨?_, ?_, fun r hr => ?_, ⟨rfl, rfl, rfl, rfl⟩, ⟨rfl, rfl, rfl, rfl, rfl⟩, rfl, rfl, rfl⟩
  · simp [State.val, State.commit, State.writeRegs, State.writeFlags]
  · simpa [State.commit, State.writeRegs, State.writeFlags] using hl
  · simpa [State.commit, State.writeRegs, State.writeFlags] using s.reg_setReg_ne rd r ws hr

/-- A completion that writes no register (R94), whatever flags it writes. -/
theorem State.commit_flags (flagw : List (Flag × Bool)) :
    s.WroteNoReg (s.commit (.done [] flagw)) := by
  have hx : ∀ (l : List (Flag × Bool)) (t : State),
      (t.writeFlags l).x = t.x ∧ (t.writeFlags l).arg = t.arg ∧
        (t.writeFlags l).status.ovr = t.status.ovr ∧ (t.writeFlags l).cfg = t.cfg ∧
        (t.writeFlags l).inbox = t.inbox ∧ (t.writeFlags l).reply = t.reply := by
    intro l
    induction l with
    | nil => intro t; exact ⟨rfl, rfl, rfl, rfl, rfl, rfl⟩
    | cons p l ih =>
      intro t
      have := ih (t.setFlag p.1 p.2)
      simpa [State.writeFlags] using this
  obtain ⟨h1, h2, h3, h4, h5, h6⟩ := hx flagw s
  exact ⟨fun r => State.reg_congr h1 r, ⟨h2, h3, h4, h5, h6⟩, rfl, rfl, rfl⟩

/-- A failed completion writes ERR alone (42_divider.md R135). -/
theorem State.commit_fail_spec (code : BitVec 4) :
    (∀ r, (s.commit (.fail code)).reg r = s.reg r) ∧ s.SameFlags (s.commit (.fail code)) ∧
      s.SameRest (s.commit (.fail code)) ∧ (s.commit (.fail code)).IdleWith code :=
  ⟨fun _ => rfl, ⟨rfl, rfl, rfl, rfl⟩, ⟨rfl, rfl, rfl, rfl, rfl⟩, rfl, rfl, rfl⟩

/-- What any completion can do: it keeps ARG, OVR and the rest, leaves every register it does not name,
every flag it does not name, and ends idle. -/
theorem State.commit_spec (res : Result) :
    s.SameRest (s.commit res) ∧ (s.commit res).pend = none ∧ (s.commit res).status.busy = false ∧
      (s.commit res).status.err = (match res with | .done _ _ => 0 | .fail code => code) ∧
      ∀ r, (∀ regw flagw, res = .done regw flagw → r ∉ regw.map Prod.fst) →
        (s.commit res).reg r = s.reg r := by
  cases res with
  | fail code => exact ⟨⟨rfl, rfl, rfl, rfl, rfl⟩, rfl, rfl, rfl, fun _ _ => rfl⟩
  | done regw flagw =>
    have hf : ∀ (l : List (Flag × Bool)) (t : State),
        t.SameRest (t.writeFlags l) ∧ ∀ r, (t.writeFlags l).reg r = t.reg r := by
      intro l
      induction l with
      | nil => intro t; exact ⟨⟨rfl, rfl, rfl, rfl, rfl⟩, fun _ => rfl⟩
      | cons p l ih => intro t; simpa [State.writeFlags, State.SameRest] using ih (t.setFlag p.1 p.2)
    have hr : ∀ (l : List (Reg × Words)) (t : State),
        t.SameRest (t.writeRegs l) ∧ ∀ r, r ∉ l.map Prod.fst → (t.writeRegs l).reg r = t.reg r := by
      intro l
      induction l with
      | nil => intro t; exact ⟨⟨rfl, rfl, rfl, rfl, rfl⟩, fun _ _ => rfl⟩
      | cons p l ih =>
        intro t
        obtain ⟨h1, h2⟩ := ih (t.setReg p.1 p.2)
        refine ⟨by simpa [State.writeRegs, State.SameRest] using h1, fun r hr => ?_⟩
        simp only [List.map_cons, List.mem_cons, not_or] at hr
        have := h2 r hr.2
        rw [State.reg_setReg_ne _ _ _ _ hr.1] at this
        simpa [State.writeRegs] using this
    obtain ⟨⟨a1, a2, a3, a4, a5⟩, a6⟩ := hr regw s
    obtain ⟨⟨b1, b2, b3, b4, b5⟩, b6⟩ := hf flagw (s.writeRegs regw)
    refine ⟨⟨b1.trans a1, b2.trans a2, b3.trans a3, b4.trans a4, b5.trans a5⟩, rfl, rfl, rfl,
      fun r h => ?_⟩
    exact (b6 r).trans (a6 r (h regw flagw rfl))

end Commit

section Bus
variable (s : State)

/-- What a CMD write can do (R92): dropped, rejected or accepted. -/
theorem State.offer_cases (v : Word) :
    (s.status.busy = true ∧ s.offer v = s.setOvr) ∨
    (∃ r, s.status.busy = false ∧ decode v = .reject r ∧ s.offer v = s.raiseError r.code) ∨
    (∃ c, s.status.busy = false ∧ decode v = .accept c ∧ s.offer v = s.latch c) := by
  unfold State.offer
  split
  · next h => exact .inl ⟨h, rfl⟩
  · next h =>
    have hb : s.status.busy = false := by simpa using h
    split
    · next r hr => exact .inr (.inl ⟨r, hb, hr, rfl⟩)
    · next c hc => exact .inr (.inr ⟨c, hb, hc, rfl⟩)

/-- What a write to a target can do (20_memory.md R58, R59). -/
theorem State.poke_cases (v : Word) (tg : Target) :
    s.poke v tg = s ∨
    s.poke v tg = { s with status := s.status.hostWrite v } ∨
    (s.status.busy = true ∧ s.poke v tg = s.setOvr) ∨
    (∃ r, s.status.busy = false ∧ decode v = .reject r ∧ s.poke v tg = s.raiseError r.code) ∨
    (∃ c, s.status.busy = false ∧ decode v = .accept c ∧ s.poke v tg = s.latch c) ∨
    (s.status.busy = false ∧ s.poke v tg = { s with arg := v }) ∨
    (∃ r i, s.status.busy = false ∧ s.poke v tg = s.setWord r i v) := by
  cases tg with
  | id => exact .inl rfl
  | status => exact .inr (.inl rfl)
  | cmd =>
    rcases s.offer_cases v with h | h | h
    · exact .inr (.inr (.inl h))
    · exact .inr (.inr (.inr (.inl h)))
    · exact .inr (.inr (.inr (.inr (.inl h))))
  | arg =>
    cases hb : s.status.busy with
    | true => exact .inr (.inr (.inl ⟨rfl, by simp [State.poke, hb]⟩))
    | false => exact .inr (.inr (.inr (.inr (.inr (.inl ⟨rfl, by simp [State.poke, hb]⟩)))))
  | opw r i =>
    cases hb : s.status.busy with
    | true => exact .inr (.inr (.inl ⟨rfl, by simp [State.poke, hb]⟩))
    | false =>
      exact .inr (.inr (.inr (.inr (.inr (.inr ⟨r, i, rfl, by simp [State.poke, hb]⟩)))))
  | reserved => exact .inl rfl

/-- What a host access can do: a reply alone, or a write's effect and its reply. -/
theorem State.access_cases (a : Access) :
    (∃ rep, s.access a = { s with reply := some rep }) ∨
    (∃ v, a.dir = .write v ∧ selected s.cfg a.addr = true ∧ supported s.cfg a = true ∧
      s.access a =
        { s.poke v (targetOf s.cfg (a.addr - s.cfg.base)) with reply := some .ack }) := by
  unfold State.access
  split
  · next hs =>
    split
    · next hp =>
      cases hd : a.dir with
      | read => exact .inl ⟨_, rfl⟩
      | write v => exact .inr ⟨v, rfl, hs, hp, rfl⟩
    · cases a.dir with
      | read => exact .inl ⟨_, rfl⟩
      | write v => exact .inl ⟨_, rfl⟩
  · exact .inl ⟨_, rfl⟩

/-- An aligned offset of the region is the block's, and an 8-byte access there is supported (R51,
R57). -/
theorem memRead_supported (cfg : Config) (off : Nat) (hoff : off < 0x20000) (h8 : off % 8 = 0) :
    selected cfg (memRead cfg off).addr = true ∧ supported cfg (memRead cfg off) = true := by
  simp [selected, supported, memRead, hoff, h8]

theorem memWrite_supported (cfg : Config) (off : Nat) (v : Word) (hoff : off < 0x20000)
    (h8 : off % 8 = 0) :
    selected cfg (memWrite cfg off v).addr = true ∧ supported cfg (memWrite cfg off v) = true := by
  simp [selected, supported, memWrite, hoff, h8]

/-- A supported read replies with what its offset reads as and changes nothing else (R58). -/
theorem State.access_memRead (off : Nat) (hoff : off < 0x20000) (h8 : off % 8 = 0) :
    s.access (memRead s.cfg off) =
      { s with reply := some (.data (s.peek (targetOf s.cfg off))) } := by
  obtain ⟨h1, h2⟩ := memRead_supported s.cfg off hoff h8
  rw [State.access, if_pos h1, if_pos h2]
  simp [memRead]

/-- A supported write has its target's effect and is acknowledged (R58). -/
theorem State.access_memWrite (off : Nat) (v : Word) (hoff : off < 0x20000) (h8 : off % 8 = 0) :
    s.access (memWrite s.cfg off v) =
      { s.poke v (targetOf s.cfg off) with reply := some .ack } := by
  obtain ⟨h1, h2⟩ := memWrite_supported s.cfg off v hoff h8
  rw [State.access, if_pos h1, if_pos h2]
  simp [memWrite]

end Bus

section Step
variable (s : State)

@[simp] theorem step_nil (h : s.inbox = []) : step s = coreTurn s := by
  unfold step; rw [h]

theorem step_cons {e : Event} {rest : List Event} (h : s.inbox = e :: rest) :
    step s = handleEvent { s with inbox := rest } e := by
  unfold step; rw [h]

/-- The core's turn on a pending command is its completion (30_encoding.md R94). -/
theorem coreTurn_pending {i : Instr} (hb : s.status.busy = true) (hp : s.pend = some i) :
    coreTurn s = exec i s := by
  simp [coreTurn, hb, hp]

/-- The core has no step while the block is idle. -/
theorem coreTurn_idle (hb : s.status.busy = false) : coreTurn s = .next s := by
  simp [coreTurn, hb]

/-- What a step can do: with u the state where the event is taken from the inbox, it is a host access,
a reset, the core's turn on a pending command, or the idle core's turn. -/
theorem step_cases {t : State} (h : step s = .next t) :
    (∃ a rest, s.inbox = .access a :: rest ∧ t = ({ s with inbox := rest } : State).access a) ∨
    (∃ rest, s.inbox = .reset :: rest ∧ t = ({ s with inbox := rest } : State).resetStep) ∨
    (∃ i rest, (s.inbox = .core :: rest ∨ s.inbox = [] ∧ rest = []) ∧ s.status.busy = true ∧
      s.pend = some i ∧ exec i { s with inbox := rest } = .next t) ∨
    (∃ rest, (s.inbox = .core :: rest ∨ s.inbox = [] ∧ rest = []) ∧ s.status.busy = false ∧
      t = { s with inbox := rest }) := by
  have core : ∀ u : State, coreTurn u = .next t →
      (∃ i, u.status.busy = true ∧ u.pend = some i ∧ exec i u = .next t) ∨
      (u.status.busy = false ∧ t = u) := by
    intro u hu
    unfold coreTurn at hu
    split at hu
    · next hb =>
      split at hu
      · next i hi => exact .inl ⟨i, hb, hi, hu⟩
      · cases hu
    · next hb =>
      cases hu
      exact .inr ⟨by simpa using hb, rfl⟩
  cases hin : s.inbox with
  | nil =>
    rw [step_nil s hin] at h
    have hs : ({ s with inbox := [] } : State) = s := by rw [← hin]
    rcases core s h with ⟨i, hb, hp, he⟩ | ⟨hb, ht⟩
    · exact .inr (.inr (.inl ⟨i, [], .inr ⟨rfl, rfl⟩, hb, hp, by rw [hs]; exact he⟩))
    · exact .inr (.inr (.inr ⟨[], .inr ⟨rfl, rfl⟩, hb, by rw [hs]; exact ht⟩))
  | cons e rest =>
    rw [step_cons s hin] at h
    cases e with
    | access a =>
      simp only [handleEvent, Host.Outcome.next.injEq] at h
      exact .inl ⟨a, rest, rfl, h.symm⟩
    | reset =>
      simp only [handleEvent, Host.Outcome.next.injEq] at h
      exact .inr (.inl ⟨rest, rfl, h.symm⟩)
    | core =>
      rcases core _ h with ⟨i, hb, hp, he⟩ | ⟨hb, ht⟩
      · exact .inr (.inr (.inl ⟨i, rest, .inl rfl, hb, hp, he⟩))
      · exact .inr (.inr (.inr ⟨rest, .inl rfl, hb, ht⟩))
    | accessInReset a => cases h

end Step

section Run

/-- A run in two parts. -/
theorem runSteps_add (m n : Nat) (s : State) :
    runSteps (m + n) s =
      match runSteps m s with
      | .next t => runSteps n t
      | .fault f => .fault f
      | .refused r => .refused r := by
  induction m generalizing s with
  | zero => simp [runSteps]
  | succ m ih =>
    rw [Nat.succ_add, runSteps, runSteps]
    cases step s with
    | next t => exact ih t
    | fault f => rfl
    | refused r => rfl

/-- What a run to its end can do: it is the first steps of the run, none of them from a state in which
the run was over, up to one in which it is or to the bound (70_reset_and_hazards.md R231). -/
theorem runToEnd_cases (n : Nat) (s : State) {t : State} (h : runToEnd n s = .next t) :
    ∃ m, m ≤ n ∧ runSteps m s = .next t ∧ (t.RunOver ∨ m = n) ∧
      ∀ k u, k < m → runSteps k s = .next u → ¬u.RunOver := by
  induction n generalizing s with
  | zero => exact ⟨0, Nat.le_refl 0, h, .inr rfl, fun _ _ hk => absurd hk (Nat.not_lt_zero _)⟩
  | succ n ih =>
    rw [runToEnd] at h
    split at h
    · next ho =>
      cases h
      exact ⟨0, Nat.zero_le _, rfl, .inl ho, fun _ _ hk => absurd hk (Nat.not_lt_zero _)⟩
    · next ho =>
      cases hs : step s with
      | fault f => rw [hs] at h; cases h
      | refused r => rw [hs] at h; cases h
      | next v =>
        rw [hs] at h
        obtain ⟨m, hm, hr, he, hf⟩ := ih v h
        refine ⟨m + 1, Nat.succ_le_succ hm, by rw [runSteps, hs]; exact hr,
          he.imp id (congrArg _), ?_⟩
        rintro (_ | k) u hk hu
        · cases hu; exact ho
        · rw [runSteps, hs] at hu; exact hf k u (Nat.lt_of_succ_lt_succ hk) hu

end Run

end Sys2Proof.Machine
end

