-- ==== Sys2Proof/Laws/Exec.lean ====
section
/-! SUPPORT. What the completion of a command can do, once for all commands: it is one commit
(30_encoding.md R94) whose register writes are the command's destinations (10_state.md R22). -/

namespace Sys2Proof.Machine

/-- A result whose writes name the given registers, and write N words to each in a state whose
registers have N words. -/
def State.ResultFor (s : State) (dests : List Reg) (res : Result) : Prop :=
  (∀ regw flagw, res = .done regw flagw → regw.map Prod.fst = dests ∧
    (s.RegsWf → ∀ p ∈ regw, p.2.length = s.cfg.numWords)) ∧
  ∀ code, res = .fail code → code = divZero

theorem State.resultFor_one (s : State) (rd : Reg) (ws : Words)
    (h : s.RegsWf → ws.length = s.cfg.numWords) : s.ResultFor [rd] (.done [(rd, ws)] []) := by
  refine ⟨fun regw flagw e => ?_, fun code e => by cases e⟩
  cases e
  exact ⟨rfl, fun hw p hp => by simp at hp; subst hp; exact h hw⟩

theorem State.resultFor_flags (s : State) (flagw : List (Flag × Bool)) :
    s.ResultFor [] (.done [] flagw) := by
  refine ⟨fun regw flagw e => ?_, fun code e => by cases e⟩
  cases e
  exact ⟨rfl, fun _ p hp => by cases hp⟩

/-- A division's result: the writes it makes of quotient and remainder, or DIVZERO. -/
theorem State.resultFor_div (s : State) (a b : Nat) (dests : List Reg)
    (regw : Nat → Nat → List (Reg × Words)) (hd : ∀ q r, (regw q r).map Prod.fst = dests)
    (hl : ∀ q r, ∀ p ∈ regw q r, p.2.length = s.cfg.numWords) :
    s.ResultFor dests (divResult a b regw) := by
  unfold divResult divCore
  by_cases hb : b = 0
  · refine ⟨fun _ _ e => ?_, fun code e => ?_⟩
    · simp [hb] at e
    · simp only [hb, if_pos] at e; cases e; rfl
  · refine ⟨fun _ _ e => ?_, fun code e => ?_⟩
    · simp only [hb, if_false] at e; cases e; exact ⟨hd _ _, fun _ => hl _ _⟩
    · simp [hb] at e

/-- The completion of a well-formed command is one commit, of a result for its destinations. -/
theorem exec_eq_complete (i : Instr) (s : State) (h : i.wf = true) :
    ∃ res, exec i s = complete s res ∧ s.ResultFor (destsOf i) res := by
  cases i with
  | add rd rs1 rs2 => exact ⟨_, rfl, s.resultFor_one rd _ fun _ => by simp⟩
  | adds rd rs1 => exact ⟨_, rfl, s.resultFor_one rd _ fun _ => by simp⟩
  | sub rd rs1 rs2 =>
    refine ⟨_, rfl, s.resultFor_one rd _ fun hw => ?_⟩
    unfold subWords
    split
    · exact hw rs1
    · simp [hw rs1, hw rs2]
  | subs rd rs1 => exact ⟨_, rfl, s.resultFor_one rd _ fun hw => by simp [hw rs1]⟩
  | mul rd rs1 rs2 => exact ⟨_, rfl, s.resultFor_one rd _ fun _ => by simp⟩
  | divrem rq rr rs1 rs2 =>
    have hne : rq ≠ rr := by simpa [Instr.wf] using h
    refine ⟨_, if_neg hne, s.resultFor_div _ _ _ _ (fun _ _ => rfl) fun q r p hp => ?_⟩
    simp at hp
    rcases hp with rfl | rfl <;> simp
  | div rd rs1 rs2 =>
    refine ⟨_, rfl, s.resultFor_div _ _ _ _ (fun _ _ => rfl) fun q r p hp => ?_⟩
    simp at hp; subst hp; simp
  | mod rd rs1 rs2 =>
    refine ⟨_, rfl, s.resultFor_div _ _ _ _ (fun _ _ => rfl) fun q r p hp => ?_⟩
    simp at hp; subst hp; simp
  | pow rd rs1 rs2 => exact ⟨_, rfl, s.resultFor_one rd _ fun _ => by simp⟩
  | pows rd rs1 => exact ⟨_, rfl, s.resultFor_one rd _ fun _ => by simp⟩
  | cmp rs1 rs2 => exact ⟨_, rfl, s.resultFor_flags _⟩
  | tstz rs1 => exact ⟨_, rfl, s.resultFor_flags _⟩
  | tsto rs1 => exact ⟨_, rfl, s.resultFor_flags _⟩
  | neg rd rs1 => exact ⟨_, rfl, s.resultFor_one rd _ fun hw => by simp [hw rs1]⟩
  | not rd rs1 => exact ⟨_, rfl, s.resultFor_one rd _ fun hw => by simp [hw rs1]⟩
  | shl1 rd rs1 => exact ⟨_, rfl, s.resultFor_one rd _ fun _ => by simp⟩
  | shr1 rd rs1 => exact ⟨_, rfl, s.resultFor_one rd _ fun _ => by simp⟩
  | mov rd rs1 => exact ⟨_, rfl, s.resultFor_one rd _ fun hw => hw rs1⟩
  | clr rd => exact ⟨_, rfl, s.resultFor_one rd _ fun _ => by simp⟩

/-- A command whose completion has a next state is well-formed (30_encoding.md R89). -/
theorem wf_of_exec_next {i : Instr} {s t : State} (h : exec i s = .next t) : i.wf = true := by
  cases i with
  | divrem rq rr rs1 rs2 =>
    by_cases he : rq = rr
    · simp [exec, execDivrem, he] at h
    · simpa [Instr.wf] using he
  | _ => rfl

/-- A completion that has a next state is one commit of a result for the command's destinations. -/
theorem exec_next {i : Instr} {s t : State} (h : exec i s = .next t) :
    ∃ res, t = s.commit res ∧ s.ResultFor (destsOf i) res := by
  obtain ⟨res, he, hr⟩ := exec_eq_complete i s (wf_of_exec_next h)
  rw [he] at h
  cases h
  exact ⟨res, rfl, hr⟩

/-- Register writes of N words keep every register at N words. -/
theorem State.regsWf_writeRegs (regw : List (Reg × Words)) (s : State) (hs : s.RegsWf)
    (hl : ∀ p ∈ regw, p.2.length = s.cfg.numWords) : (s.writeRegs regw).RegsWf := by
  induction regw generalizing s with
  | nil => exact hs
  | cons p l ih =>
    have h1 : (s.setReg p.1 p.2).RegsWf := by
      intro r
      rw [State.reg_setReg]
      split
      · exact hl p (by simp)
      · exact hs r
    exact ih (s.setReg p.1 p.2) h1 fun q hq => hl q (by simp [hq])

end Sys2Proof.Machine
end

