-- ==== Sys2Proof/Laws/PerInstr.lean ====
section
/-! SUPPORT. Laws per command, one lemma per constructor. OpcodeRow: a command's word has no reserved
bit set, and its opcode is the opcode map's row of its own mnemonic (30_encoding.md R84, R87). -/

namespace Sys2Proof.Laws.OpcodeRow

open Sys2Proof

/-- The word of the command is one whose OPC is the row of its mnemonic, with bits 63:24 zero. -/
def Statement (i : Instr) : Prop :=
  reservedField (encode i) = 0#40 ∧
    (opMap.find? (fun row => row.opc == opcField (encode i))).map (fun row => row.mnemonic) =
      some (mnemonicOf i)

/-- A command whose word is made from fields satisfies the law where its opcode's row has its
mnemonic. -/
theorem ofFields {i : Instr} {opc : BitVec 8} {rd rs1 rs2 rd2 : BitVec 4}
    (he : encode i = wordOfFields opc rd rs1 rs2 rd2)
    (hr : (opMap.find? (fun row => row.opc == opc)).map (fun row => row.mnemonic) =
      some (mnemonicOf i)) : Statement i := by
  rw [Statement, he, opcField_wordOfFields]
  exact ⟨reservedField_wordOfFields opc rd rs1 rs2 rd2, hr⟩

theorem add (rd rs1 rs2 : Reg) : Statement (.add rd rs1 rs2) :=
  ofFields rfl rfl
theorem adds (rd rs1 : Reg) : Statement (.adds rd rs1) :=
  ofFields rfl rfl
theorem sub (rd rs1 rs2 : Reg) : Statement (.sub rd rs1 rs2) :=
  ofFields rfl rfl
theorem subs (rd rs1 : Reg) : Statement (.subs rd rs1) :=
  ofFields rfl rfl
theorem mul (rd rs1 rs2 : Reg) : Statement (.mul rd rs1 rs2) :=
  ofFields rfl rfl
theorem divrem (rq rr rs1 rs2 : Reg) : Statement (.divrem rq rr rs1 rs2) :=
  ofFields rfl rfl
theorem div (rd rs1 rs2 : Reg) : Statement (.div rd rs1 rs2) :=
  ofFields rfl rfl
theorem mod (rd rs1 rs2 : Reg) : Statement (.mod rd rs1 rs2) :=
  ofFields rfl rfl
theorem pow (rd rs1 rs2 : Reg) : Statement (.pow rd rs1 rs2) :=
  ofFields rfl rfl
theorem pows (rd rs1 : Reg) : Statement (.pows rd rs1) :=
  ofFields rfl rfl
theorem cmp (rs1 rs2 : Reg) : Statement (.cmp rs1 rs2) :=
  ofFields rfl rfl
theorem tstz (rs1 : Reg) : Statement (.tstz rs1) :=
  ofFields rfl rfl
theorem tsto (rs1 : Reg) : Statement (.tsto rs1) :=
  ofFields rfl rfl
theorem neg (rd rs1 : Reg) : Statement (.neg rd rs1) :=
  ofFields rfl rfl
theorem not (rd rs1 : Reg) : Statement (.not rd rs1) :=
  ofFields rfl rfl
theorem shl1 (rd rs1 : Reg) : Statement (.shl1 rd rs1) :=
  ofFields rfl rfl
theorem shr1 (rd rs1 : Reg) : Statement (.shr1 rd rs1) :=
  ofFields rfl rfl
theorem mov (rd rs1 : Reg) : Statement (.mov rd rs1) :=
  ofFields rfl rfl
theorem clr (rd : Reg) : Statement (.clr rd) :=
  ofFields rfl rfl

end Sys2Proof.Laws.OpcodeRow
end

