-- ==== Sys2Proof/Tests/Slice0.lean ====
section
/-! SUPPORT. Tests: each expected result is a vector of spec/95_test_vectors.md or a sentence of the rule
named, worked out there and not by the model. Then one witness for the hypotheses of each statement of
Certificates/Slice0/Obligations.lean that has any. -/

namespace Sys2Proof.Tests

open Sys2Proof.Machine

/-- All ones: 2^64 − 1. -/
abbrev ones : Word := 0xFFFFFFFFFFFFFFFF

/-- The reset state of an instance with N = n + 1 words and BASE = 0x60000, with ARG and the named
registers loaded. -/
def loaded (n : Fin 512) (regs : List (Reg × Words)) (arg : Word) : State :=
  regs.foldl (fun s p => s.setReg p.1 p.2)
    { State.resetOf { topWord := n, region := 3 } with arg := arg }

/-- W = 128, x[1] and x[2] loaded. -/
def two (a b : Words) : State := loaded 1 [(1, a), (2, b)] 0

/-- W = 128, x[1] and ARG loaded. -/
def oneArg (a : Words) (arg : Word) : State := loaded 1 [(1, a)] arg

/-- The outcome is a next state of which p holds. -/
def after (o : Outcome) (p : State → Bool) : Bool :=
  match o with
  | .next t => p t
  | .fault _ => false
  | .refused _ => false

/-- The outcome is a next state with these words in the register and this STATUS. -/
def gives (o : Outcome) (r : Reg) (ws : Words) (status : Word) : Bool :=
  after o fun t => t.reg r == ws && t.status.toWord == status && t.pend == none

/-! ### WellFormed refuses each ill-formed term -/

/-- R89: DIVREM with RD = RD2 is no command; every other term of Syntax is one. -/
theorem test_wf_refuses_aliased_divrem : Instr.wf (.divrem 4 4 1 2) = false := by decide

theorem test_wf_takes_divrem_over_its_sources : Instr.wf (.divrem 2 1 1 2) = true := by decide

/-! ### Decoding: words written out from R81 and R84, all of 95_test_vectors.md section 2.8 -/

theorem test_decode_adder :
    decode 0x32101 = .accept (.add 1 2 3) ∧ decode 0x2102 = .accept (.adds 1 2) ∧
      decode 0x32103 = .accept (.sub 1 2 3) ∧ decode 0x2104 = .accept (.subs 1 2) := by decide

theorem test_decode_multiplier : decode 0x56710 = .accept (.mul 7 6 5) := by decide

theorem test_decode_divider :
    decode 0x421320 = .accept (.divrem 3 4 1 2) ∧ decode 0x21321 = .accept (.div 3 1 2) ∧
      decode 0x21322 = .accept (.mod 3 1 2) := by decide

theorem test_decode_power :
    decode 0x21330 = .accept (.pow 3 1 2) ∧ decode 0x1331 = .accept (.pows 3 1) := by decide

theorem test_decode_tests :
    decode 0x65040 = .accept (.cmp 5 6) ∧ decode 0x7041 = .accept (.tstz 7) ∧
      decode 0x7042 = .accept (.tsto 7) := by decide

theorem test_decode_operators :
    decode 0x1243 = .accept (.neg 2 1) ∧ decode 0x1244 = .accept (.not 2 1) ∧
      decode 0x1245 = .accept (.shl1 2 1) ∧ decode 0x1246 = .accept (.shr1 2 1) := by decide

theorem test_decode_movement :
    decode 0x2350 = .accept (.mov 3 2) ∧ decode 0x551 = .accept (.clr 5) := by decide

theorem test_encode_adder :
    encode (.add 1 2 3) = 0x32101 ∧ encode (.adds 1 2) = 0x2102 ∧ encode (.sub 1 2 3) = 0x32103 ∧
      encode (.subs 1 2) = 0x2104 ∧ encode (.mul 7 6 5) = 0x56710 := by decide

theorem test_encode_divider_power :
    encode (.divrem 3 4 1 2) = 0x421320 ∧ encode (.div 3 1 2) = 0x21321 ∧
      encode (.mod 3 1 2) = 0x21322 ∧ encode (.pow 3 1 2) = 0x21330 ∧
      encode (.pows 3 1) = 0x1331 := by decide

theorem test_encode_primitives_movement :
    encode (.cmp 5 6) = 0x65040 ∧ encode (.tstz 7) = 0x7041 ∧ encode (.tsto 7) = 0x7042 ∧
      encode (.neg 2 1) = 0x1243 ∧ encode (.not 2 1) = 0x1244 ∧ encode (.shl1 2 1) = 0x1245 ∧
      encode (.shr1 2 1) = 0x1246 ∧ encode (.mov 3 2) = 0x2350 ∧ encode (.clr 5) = 0x551 := by
  decide

/-- V-DEC-1 to V-DEC-3, V-DEC-13: ILLOP, checked first. -/
theorem test_decode_illop :
    decode 0x0 = .reject .illop ∧ decode 0xFF = .reject .illop ∧ decode 0x5 = .reject .illop ∧
      decode 0x1000005 = .reject .illop := by decide

/-- V-DEC-4 to V-DEC-8, V-DEC-14: ILLFMT, before ILLREG. -/
theorem test_decode_illfmt :
    decode 0x1032101 = .reject .illfmt ∧ decode 0x8000000000032101 = .reject .illfmt ∧
      decode 0x132101 = .reject .illfmt ∧ decode 0x2141 = .reject .illfmt ∧
      decode 0x10151 = .reject .illfmt ∧ decode 0x18940 = .reject .illfmt := by decide

/-- V-DEC-9 to V-DEC-11, V-DEC-15: ILLREG, before ALIAS. -/
theorem test_decode_illreg :
    decode 0x32801 = .reject .illreg ∧ decode 0x3F110 = .reject .illreg ∧
      decode 0x932120 = .reject .illreg ∧ decode 0x821820 = .reject .illreg := by decide

/-- V-DEC-12, V-DEC-17. -/
theorem test_decode_aliased :
    decode 0x421420 = .reject .aliased ∧ decode 0x100020 = .accept (.divrem 0 1 0 0) := by decide

/-- R96: the example and the DIVREM form. -/
theorem test_asm :
    asm (.add 1 2 3) = "ADD r1, r2, r3" ∧ asm (.divrem 3 4 1 2) = "DIVREM r3, r4, r1, r2" ∧
      asm (.clr 5) = "CLR r5" := by decide

theorem test_table_word : decodeTableWord 64 0x51 = some (.clr 0) := by decide

/-! ### The adder family -/

theorem test_add_carry_chain :  -- V-ADD-5
    gives (exec (.add 3 1 2) (loaded 2 [(1, [ones, ones, 0]), (2, [1, ones, 0])] 0)) 3
      [0, ones, 1] 0 = true := by decide

theorem test_add_in_place :  -- V-ADD-6
    gives (exec (.add 1 1 1) (oneArg [5, 1] 0)) 1 [0xA, 2] 0 = true := by decide

theorem test_adds_propagates :  -- V-ADDS-3
    gives (exec (.adds 2 1) (loaded 2 [(1, [ones, ones, 0])] 1)) 2 [0, 0, 1] 0 = true := by decide

theorem test_adds_wraps :  -- V-ADDS-2
    gives (exec (.adds 2 1) (oneArg [ones, ones] ones)) 2 [0xFFFFFFFFFFFFFFFE, 0] 0 = true := by
  decide

theorem test_sub_borrows :  -- V-SUB-6
    gives (exec (.sub 3 1 2) (two [3, 0] [0, 1])) 3 [3, ones] 0 = true := by decide

theorem test_sub_zero :  -- V-SUB-4
    gives (exec (.sub 3 1 2) (two [0x3039, 0] [0, 0])) 3 [0x3039, 0] 0 = true := by decide

theorem test_subs_no_borrow :  -- V-SUBS-2
    gives (exec (.subs 2 1) (oneArg [0, 1] 1)) 2 [ones, 1] 0 = true := by decide

theorem test_subs_one_word :  -- V-SUBS-4
    gives (exec (.subs 2 1) (loaded 0 [(1, [0])] 1)) 2 [ones] 0 = true := by decide

/-! ### The multiplier -/

theorem test_mul_full_word :  -- V-MUL-8
    gives (exec (.mul 3 1 2) (two [ones, 0] [ones, 0])) 3 [1, 0xFFFFFFFFFFFFFFFE] 0 = true := by
  decide

theorem test_mul_square_in_place :  -- V-MUL-9
    gives (exec (.mul 1 1 1) (oneArg [3, 1] 0)) 1 [9, 6] 0 = true := by decide

/-- R121 on V-EX-5's operands. -/
theorem test_shift_add : shiftAddMul [2, 0] [ones, 0] = [0xFFFFFFFFFFFFFFFE, 1] := by decide

/-! ### The divider -/

theorem test_divrem_spans_words :  -- V-DIV-11
    after (exec (.divrem 3 4 1 2) (two [0, 0x8000000000000000] [3, 0])) (fun t =>
      t.reg 3 == [0xAAAAAAAAAAAAAAAA, 0x2AAAAAAAAAAAAAAA] && t.reg 4 == [2, 0]) = true := by decide

theorem test_divrem_into_sources :  -- V-DIV-19
    after (exec (.divrem 2 1 1 2) (two [0x64, 0] [7, 0])) (fun t =>
      t.reg 2 == [14, 0] && t.reg 1 == [2, 0]) = true := by decide

theorem test_div_over_divisor :  -- V-DIV-17
    gives (exec (.div 2 1 2) (two [0x64, 0] [7, 0])) 2 [14, 0] 0 = true := by decide

theorem test_mod_in_place :  -- V-DIV-18
    gives (exec (.mod 1 1 2) (two [0x64, 0] [7, 0])) 1 [2, 0] 0 = true := by decide

theorem test_div_by_zero :  -- V-DIV-14's operands, R135
    gives (exec (.div 3 1 2) (loaded 1 [(1, [0x64, 0]), (3, [0xAA, 0])] 0)) 3 [0xAA, 0] 0x100
      = true := by decide

theorem test_mod_by_zero :  -- V-DIV-20
    gives (exec (.mod 3 1 2) (two [0x3039, 0] [0, 0])) 3 [0, 0] 0x100 = true := by decide

/-- R131 on V-DIV-5's shape at 8 bits: the top quotient bit is not lost. -/
theorem test_restoring_division :
    restoringDivide 8 255 1 = (255, 0) ∧ restoringDivide 8 255 128 = (1, 127) ∧
      restoringDivide 8 7 2 = (3, 1) := by decide

/-! ### The exponentiation engine -/

theorem test_pow_in_place :  -- V-POW-10
    gives (exec (.pow 1 1 1) (oneArg [3, 0] 0)) 1 [0x1B, 0] 0 = true := by decide

theorem test_pow_second_word :  -- V-POW-8
    gives (exec (.pow 3 1 2) (two [3, 0] [0, 1])) 3 [1, 0xAAC77AE32292E8F4] 0 = true := by
  decide +kernel

theorem test_pows_wraps :  -- V-POWS-6
    gives (exec (.pows 3 1) (loaded 0 [(1, [0xA])] 0x14)) 3 [0x6BC75E2D63100000] 0 = true := by
  decide

theorem test_pows_all_bits :  -- V-POWS-3
    gives (exec (.pows 3 1) (oneArg [3, 0] ones)) 3 [0xAAAAAAAAAAAAAAAB, 0xE397D3A10B864DA6] 0
      = true := by decide +kernel

/-! ### The comparator and primitives -/

theorem test_cmp_lt :  -- V-CMP-2
    after (exec (.cmp 1 2) (two [ones, 0] [0, 1])) (fun t => t.status.toWord == 0x8) = true := by
  decide

theorem test_cmp_gt_unsigned :  -- V-CMP-5
    after (exec (.cmp 1 2) (two [0, 0x8000000000000000] [1, 0]))
      (fun t => t.status.toWord == 0x10) = true := by decide

theorem test_tstz_zero :  -- V-TSTZ-1
    after (exec (.tstz 1) (oneArg [0, 0] 0)) (fun t => t.status.toWord == 0x2) = true := by decide

theorem test_tstz_high_word :  -- V-TSTZ-3
    after (exec (.tstz 1) (oneArg [0, 1] 0)) (fun t => t.status.toWord == 0x0) = true := by decide

theorem test_tsto_odd :  -- V-TSTO-1
    after (exec (.tsto 1) (oneArg [0x7D, 0] 0)) (fun t => t.status.toWord == 0x4) = true := by decide

theorem test_tsto_even :  -- V-TSTO-2
    after (exec (.tsto 1) (oneArg [0, 1] 0)) (fun t => t.status.toWord == 0x0) = true := by decide

theorem test_neg_zero :  -- V-NEG-2
    gives (exec (.neg 2 1) (oneArg [0, 0] 0)) 2 [0, 0] 0 = true := by decide

theorem test_neg_in_place :  -- V-NEG-4
    gives (exec (.neg 1 1) (oneArg [0, 1] 0)) 1 [0, ones] 0 = true := by decide

theorem test_not :  -- V-NOT-1
    gives (exec (.not 2 1) (oneArg [1, 0] 0)) 2 [0xFFFFFFFFFFFFFFFE, ones] 0 = true := by decide

theorem test_shl1_across_words :  -- V-SHL1-1
    gives (exec (.shl1 2 1) (oneArg [0x8000000000000000, 0] 0)) 2 [0, 1] 0 = true := by decide

theorem test_shl1_top_bit_lost :  -- V-SHL1-2
    gives (exec (.shl1 2 1) (oneArg [0, 0x8000000000000000] 0)) 2 [0, 0] 0 = true := by decide

theorem test_shr1_across_words :  -- V-SHR1-1
    gives (exec (.shr1 2 1) (oneArg [0, 1] 0)) 2 [0x8000000000000000, 0] 0 = true := by decide

theorem test_shr1_logical :  -- V-SHR1-3
    gives (exec (.shr1 2 1) (oneArg [ones, ones] 0)) 2 [ones, 0x7FFFFFFFFFFFFFFF] 0 = true := by
  decide

/-! ### Data movement -/

theorem test_mov :  -- V-MOV-1
    gives (exec (.mov 3 2) (two [0, 0] [0x7D, 0])) 3 [0x7D, 0] 0 = true := by decide

theorem test_clr :  -- V-CLR-1
    gives (exec (.clr 5) (loaded 1 [(5, [ones, ones])] 0)) 5 [0, 0] 0 = true := by decide

/-! ### The register window and the lifecycle -/

/-- The reply to one access. -/
def replyTo (s : State) (a : Access) : Option Reply := (s.access a).reply

theorem test_id :  -- V-IF-1, V-IF-11
    replyTo (two [] []) (memRead (two [] []).cfg 0x00) = some (.data 0x4D50413101080002) ∧
      ((two [0, 0] [0, 0]).access (memWrite { topWord := 1, region := 3 } 0x00 1)).x =
        (two [0, 0] [0, 0]).x := by decide

theorem test_operand_word_write :  -- V-IF-4
    ((two [0, 0] [0, 0]).access (memWrite { topWord := 1, region := 3 } 0x11008 0xAB)).reg 1
      = [0, 0xAB] := by decide

theorem test_lanes :  -- V-IF-5
    laneByte 0x0807060504030201 0 = 0x01 ∧ laneByte 0x0807060504030201 7 = 0x08 := by decide

theorem test_reserved_word :  -- V-IF-6, V-IF-7
    replyTo (two [1, 1] [1, 1]) (memRead { topWord := 1, region := 3 } 0x11010) = some (.data 0) ∧
      replyTo (two [1, 1] [1, 1]) (memRead { topWord := 1, region := 3 } 0x18000) = some (.data 0) := by
  decide

theorem test_narrow_read :  -- V-IF-8
    replyTo (two [0, 0] [0, 0])
      { addr := 0x70000, size := 4, lanes := 0x0F, dir := .read } = some (.readError 0) := by decide

theorem test_misaligned_write :  -- V-IF-9
    ((loaded 1 [(0, [5, 0])] 0).access
      { addr := 0x70004, size := 8, lanes := 0xFF, dir := .write 0xFF }).reg 0 = [5, 0] := by decide

theorem test_arg_write :  -- V-IF-12
    ((two [] []).access (memWrite { topWord := 1, region := 3 } 0x18 0xDEAD)).arg = 0xDEAD := by
  decide

/-- The state of V-LC-1 after the CMD write. -/
def pendingMul : State :=
  (two [6, 0] [7, 0]).access (memWrite { topWord := 1, region := 3 } 0x10 0x21310)

theorem test_accepted :  -- V-LC-1
    pendingMul.status.toWord = 0x1 ∧ pendingMul.pend = some (.mul 3 1 2) ∧
      replyTo pendingMul (memRead pendingMul.cfg 0x13000) = some (.data 0) := by decide

/-- The state of V-LC-2. -/
def droppedWrite : State := pendingMul.access (memWrite pendingMul.cfg 0x11000 9)

theorem test_dropped_write :  -- V-LC-2
    droppedWrite.reg 1 = [6, 0] ∧ droppedWrite.status.toWord = 0x1001 := by decide

theorem test_completion :  -- V-LC-3
    gives (step droppedWrite) 3 [42, 0] 0x1000 = true := by decide

theorem test_clear_ovr :  -- V-LC-4, V-LC-5
    (droppedWrite.access (memWrite droppedWrite.cfg 0x08 0x1000)).status.toWord = 0x1 ∧
      (droppedWrite.access (memWrite droppedWrite.cfg 0x08 0xFFF)).status.toWord = 0x1001 := by
  decide

theorem test_rejection_keeps_flags :  -- V-LC-11
    (({ two [0, 0] [0, 0] with status := { Status.reset with z := true } } : State).access
      (memWrite { topWord := 1, region := 3 } 0x10 0)).status.toWord = 0x202 := by decide

theorem test_reset_abandons :  -- V-LC-12
    after (step { pendingMul with inbox := [.reset] }) (fun t =>
      t.reg 1 == [0, 0] && t.status.toWord == 0 && t.pend == none) = true := by decide

theorem test_fetch_runs_first :  -- V-DIV-13 from reset, through withFetchWord
    after (step (State.reset.withFetchWord 64 0x421320)) (fun t => t.status.toWord == 0x100)
      = true := by decide

theorem test_fetch_rejects :  -- V-DEC-12 from reset, through withFetchWord
    after (step (State.reset.withFetchWord 64 0x421420)) (fun t => t.status.toWord == 0x500)
      = true := by decide

/-! ### Witnesses: the hypotheses of each statement can be met -/

/-- SUB, SUBS, MUL, DIV, MOD, POW, NEG, NOT, SHR1, MOV and the refinements: every register has N words. -/
theorem witness_regsWf : (two [0, 1] [2, 0]).RegsWf ∧ (two [0, 1] [0, 0]).RegsWf := by decide

/-- N = 512, the widest instance, and N = 1. -/
theorem witness_config_bounds :
    ({ topWord := 511, region := 0 } : Config).width = 32768 ∧
      ({ topWord := 0, region := 0 } : Config).width = 64 := by decide

/-- DivremWritesBoth: both the divisor that is 0 and the one that is not, with rq ≠ rr. -/
theorem witness_divrem :
    (3 : Reg) ≠ 4 ∧ (two [0, 1] [2, 0]).val 2 ≠ 0 ∧ (two [0, 1] [0, 0]).val 2 = 0 := by decide

/-- ResetRestoresEverythingAndAbandons: a busy block with a reset next. -/
theorem witness_reset_pending :
    ({ pendingMul with inbox := [.reset, .core] } : State).inbox = .reset :: [.core] ∧
      pendingMul.status.busy = true := by decide

/-- DecodeOfEncodeIsIdentity. -/
theorem witness_wf : Instr.wf (.divrem 7 0 7 7) = true ∧ Instr.wf (.clr 7) = true := by decide

/-- AcceptedWordIsTheEncoding. -/
theorem witness_accepted_word : decode 0x777730 = .reject .illfmt ∧
    decode 0x77730 = .accept (.pow 7 7 7) := by decide

/-- LegalWordsAreTheTableRows: a defined opcode, and a row of the table. -/
theorem witness_defined_opcode :
    opcField 0x77730 ∈ definedOpcodes ∧ opcField 0x0 ∉ definedOpcodes ∧ 0 < tableRows.length := by
  decide

/-- AddWordsIsTheModularSum: both incoming carries, at the top of the range. -/
theorem witness_addWords :
    addWords 1 [ones, ones] [ones, ones] = [ones, ones] ∧ addWords 0 [ones] [1] = [0] := by decide

/-- AdderLaws, MultiplierLaws: the commands that follow one another complete, on registers apart. -/
theorem witness_sequence_add :
    after (exec (.add 3 1 2) (two [ones, ones] [1, 0])) (fun t =>
      after (exec (.add 3 3 4) t) fun u => u.status.err == 0) = true ∧
    after (exec (.sub 3 1 2) (two [0, 0] [1, 0])) (fun t =>
      after (exec (.add 3 3 2) t) fun u => u.reg 3 == [0, 0]) = true := by decide

theorem witness_adds_top :
    (oneArg [ones, ones] 1).val 1 = (oneArg [ones, ones] 1).modulus - 1 ∧
      (oneArg [ones, ones] 1).arg = 1 := by decide

/-- AdderLaws and SubsWrapsWordZeroOnly: N > 1 and ARG above word 0; ARG equal to word 0. -/
theorem witness_subs_above :
    1 < (oneArg [0, 1] 1).cfg.numWords ∧
      (wordAt ((oneArg [0, 1] 1).reg 1) 0).toNat < (oneArg [0, 1] 1).arg.toNat ∧
      (oneArg [1, 1] 1).arg.toNat ≤ (wordAt ((oneArg [1, 1] 1).reg 1) 0).toNat ∧
      after (exec (.subs 2 1) (oneArg [0, 1] 1)) (fun t =>
        after (exec (.adds 2 2) t) fun u => u.reg 2 == [0, 2]) = true := by decide

theorem witness_sequence_mul :
    after (exec (.mul 3 1 2) (two [ones, ones] [2, 0])) (fun t =>
      after (exec (.mul 3 3 4) t) fun u => u.status.err == 0) = true ∧
    after (exec (.add 3 1 2) (two [ones, ones] [2, 0])) (fun t =>
      after (exec (.mul 3 4 3) t) fun u => u.status.err == 0) = true := by decide

/-- DividerLaws: the four commands complete, and 100 = 14·7 + 2 comes back. -/
theorem witness_sequence_div :
    after (exec (.div 3 1 2) (two [0x64, 0] [7, 0])) (fun t =>
      after (exec (.mul 3 3 2) t) fun u => after (exec (.mod 4 1 2) u) fun v =>
        after (exec (.add 3 3 4) v) fun w => w.reg 3 == [0x64, 0]) = true ∧
    (after (exec (.divrem 3 4 1 2) (two [0x64, 0] [0, 0])) fun t => t.status.err == 1) = true := by
  decide

/-- DivCoreIsEuclidean, RestoringDivisionIsEuclidean: divisor above, equal to and below the dividend. -/
theorem witness_division_ranges :
    divCore 3 7 = some (0, 3) ∧ divCore 5 5 = some (1, 0) ∧ restoringDivide 8 3 7 = (0, 3) ∧
      restoringDivide 8 5 5 = (1, 0) ∧ normalizeDivisor 8 255 8 1 0 = (128, 7) := by decide

/-- PowCoreIsThePower: the exponents 0 and 2^bits − 1. -/
theorem witness_powCore : powCore (2 ^ 8) 0 0 0 = 1 ∧ powCore (2 ^ 8) 3 3 7 = 139 := by decide

/-- PowerLaws: equal exponents in ARG and in a register; exponents 0, 1, and m + n. -/
theorem witness_power :
    (loaded 1 [(1, [3, 0]), (2, [2, 0])] 2).val 2 = 2 ∧
      (loaded 1 [(1, [3, 0]), (2, [2, 0])] 2).arg.toNat = 2 ∧
      (two [3, 0] [0, 0]).val 2 = 0 ∧ (two [3, 0] [1, 0]).val 2 = 1 ∧
      (loaded 1 [(1, [3, 0]), (2, [1, 0]), (3, [2, 0]), (4, [3, 0])] 0).val 4 = 1 + 2 := by decide

/-- CmpComparesMagnitudes: the equal case, V-CMP-3; TstzTestsZero: Z = 0 with only bit W−1 set. -/
theorem witness_flag_boundaries :
    after (exec (.cmp 1 2) (two [ones, ones] [ones, ones])) (fun t => t.status.toWord == 0) = true ∧
      after (exec (.tstz 1) (oneArg [0, 0x8000000000000000] 0)) (fun t => !t.status.z) = true := by
  decide

/-- StepRunsTheDecodedCommand, CommandWriteOutcomes: an idle block with a CMD write next, a busy block
with the core's turn next or with nothing left. -/
theorem witness_cmd_write :
    ({ two [6, 0] [7, 0] with
        inbox := [.access (memWrite { topWord := 1, region := 3 } 0x10 0x21310), .core] } : State).status.busy
      = false ∧ decode 0x21310 = .accept (.mul 3 1 2) ∧ decode 0x421420 = .reject .aliased ∧
    pendingMul.status.busy = true ∧ pendingMul.inbox = [] := by decide

/-- RegisterWindowMap, BusyDropsWrites: a reserved offset of each of the ranges, at its bounds. -/
theorem witness_reserved :
    (∀ off ∈ [0x20, 0xFFF8, 0x10010, 0x17FF8, 0x18000, 0x1FFF8],
      reservedOffset { topWord := 1, region := 3 } off) := by decide

/-- No register and no operand word, at the bounds, is reserved. -/
theorem witness_not_reserved :
    (∀ off ∈ [0x0, 0x18, 0x10000, 0x10008, 0x17008],
      ¬reservedOffset { topWord := 1, region := 3 } off) ∧
      ¬reservedOffset { topWord := 511, region := 3 } 0x17FF8 := by decide

/-- UnsupportedAccessChangesNothing, AccessOutsideTheRegionIsIgnored: each condition on an address of the region, and the
addresses just outside it. -/
theorem witness_unsupported :
    replyTo pendingMul { addr := 0x60000, size := 16, lanes := 0xFF, dir := .read } =
        some (.readError 0) ∧
      replyTo pendingMul { addr := 0x60000, size := 8, lanes := 0x7F, dir := .write 1 } =
        some .writeError ∧
      replyTo pendingMul { addr := 0x7FFFC, size := 8, lanes := 0xFF, dir := .read } =
        some (.readError 0) ∧
      replyTo pendingMul { addr := 0x5FFFF, size := 8, lanes := 0xFF, dir := .read } =
        some .notSelected ∧
      replyTo pendingMul { addr := 0x80000, size := 8, lanes := 0xFF, dir := .read } =
        some .notSelected := by decide

/-- OperandWordWriteReadsBack: idle, every register of N words, the last word. -/
theorem witness_operand_word :
    (two [6, 0] [7, 0]).RegsWf ∧ (two [6, 0] [7, 0]).status.busy = false ∧
      1 < (two [6, 0] [7, 0]).cfg.numWords := by decide

/-- StatusWordAndWrite: bit 12 set and clear. -/
theorem witness_status_write :
    (0x1000 : Word).getLsbD 12 = true ∧ (0xFFF : Word).getLsbD 12 = false := by decide

/-- EveryStepKeepsTheInvariant, EveryRunEndsIdle: a busy state that meets the invariant steps. -/
theorem witness_invariant : pendingMul.Inv ∧ after (step pendingMul) (fun _ => true) = true := by decide

/-- WhereTheMachineStops: each of its stops, the empty latch met with an empty inbox and at a core's
turn. -/
theorem witness_stops :
    (match step { pendingMul with inbox := [.accessInReset (memRead pendingMul.cfg 0)] } with
      | .refused .accessDuringReset => true | _ => false) = true ∧
    ({ pendingMul with inbox := [.accessInReset (memRead pendingMul.cfg 0)] } : State).Inv ∧
    ({ pendingMul with pend := none } : State).status.busy = true ∧ pendingMul.inbox = [] ∧
    (match step { pendingMul with pend := none, inbox := [.core] } with
      | .fault .emptyLatch => true | _ => false) = true := by decide

/-- CompletionWritesOnlyDestinations, CompletionReadsOnlySources: two states that agree on the sources
alone. -/
theorem witness_sources :
    (two [6, 0] [7, 0]).cfg = (loaded 1 [(1, [6, 0]), (2, [7, 0]), (3, [9, 9])] 5).cfg ∧
      (∀ r ∈ sourcesOf (.mul 3 1 2), (two [6, 0] [7, 0]).reg r =
        (loaded 1 [(1, [6, 0]), (2, [7, 0]), (3, [9, 9])] 5).reg r) ∧
      readsArg (.mul 3 1 2) = false := by decide

/-- BusyChangesOnlyThere: BUSY goes to 1 at an accepted write, and to 0 at the completion. -/
theorem witness_busy :
    after (step { two [6, 0] [7, 0] with
      inbox := [.access (memWrite { topWord := 1, region := 3 } 0x10 0x21310)] })
        (fun t => t.status.busy) = true ∧
    pendingMul.Completes (.mul 3 1 2) ∧ after (step pendingMul) (fun t => !t.status.busy) = true := by
  decide

/-- FlagsChangeOnlyByTheirTest: each flag changes at its own test, and Z at a reset. -/
theorem witness_flags :
    after (step { pendingMul with pend := some (.tstz 0) }) (fun t => t.status.z) = true ∧
      after (step { pendingMul with pend := some (.tsto 2) }) (fun t => t.status.odd) = true ∧
      after (step { pendingMul with pend := some (.cmp 1 2) }) (fun t => t.status.lt) = true ∧
      after (step { pendingMul with pend := some (.cmp 2 1) }) (fun t => t.status.gt) = true ∧
      after (step { pendingMul with status := { Status.reset with z := true }, inbox := [.reset] })
        (fun t => !t.status.z) = true := by decide

/-- ErrAndOvrChangeOnlyThere: ERR at a failed completion and at a rejection, OVR set and cleared. -/
theorem witness_err_ovr :
    after (step { pendingMul with pend := some (.div 3 1 0) }) (fun t => t.status.err == 1) = true ∧
      after (step { two [6, 0] [7, 0] with
        inbox := [.access (memWrite { topWord := 1, region := 3 } 0x10 0)] })
          (fun t => t.status.err == 2) = true ∧
      after (step { pendingMul with inbox := [.access (memWrite pendingMul.cfg 0x18 5)] })
          (fun t => t.status.ovr) = true ∧
      after (step { droppedWrite with inbox := [.access (memWrite pendingMul.cfg 0x08 0x1000)] })
          (fun t => !t.status.ovr) = true := by decide

/-- RegistersChangeOnlyThere: ARG and a register at a host write, a register at a completion. -/
theorem witness_registers :
    after (step { two [6, 0] [7, 0] with
      inbox := [.access (memWrite { topWord := 1, region := 3 } 0x18 5)] }) (fun t => t.arg == 5) = true ∧
    after (step { two [6, 0] [7, 0] with
      inbox := [.access (memWrite { topWord := 1, region := 3 } 0x11008 5)] })
        (fun t => t.reg 1 == [6, 5]) = true ∧
    after (step pendingMul) (fun t => t.reg 3 == [42, 0]) = true := by decide

/-- EveryRunEndsIdle: an inbox with no access that overlaps a reset. -/
theorem witness_run : ∀ a : Access, Event.accessInReset a ∉ ({ pendingMul with inbox := [.core, .reset] } : State).inbox := by
  intro a h; simp at h

/-- EveryRunEndsIdle, R231: an idle block with a reset still to come, or with a core's turn, is over with
its registers as they are; a host access left, or BUSY = 1, keeps the run open; and a pending command
completes before the end, which the reset behind it does not touch. -/
theorem witness_run_over :
    ({ two [6, 0] [7, 0] with inbox := [.reset] } : State).RunOver ∧
    ({ two [6, 0] [7, 0] with inbox := [.core] } : State).RunOver ∧
    ¬({ two [6, 0] [7, 0] with inbox := [.reset, .access (memRead pendingMul.cfg 0)] } : State).RunOver ∧
    ¬pendingMul.RunOver ∧
    after (runToEnd 2 { two [6, 0] [7, 0] with inbox := [.reset] }) (fun t => t.reg 1 == [6, 0]) = true ∧
    after (runToEnd 3 { pendingMul with inbox := [.core, .reset] }) (fun t => t.reg 3 == [42, 0]) = true := by
  decide

/-- HostSequencesHaveTheirResults: an idle block whose registers have N words, INC with one poll, and LI
with no poll in its first WAIT and one in its second, R98. -/
theorem witness_sequences :
    (two [ones, 0] [7, 0]).RegsWf ∧ (two [ones, 0] [7, 0]).status.busy = false ∧
      after (runEvents (two [ones, 0] [7, 0]) (pseudoInc { topWord := 1, region := 3 } 1 3 1))
        (fun t => t.reg 3 == [0, 1]) = true ∧
      after (runEvents (two [ones, 0] [7, 0]) (pseudoLi { topWord := 1, region := 3 } 0 1 2 5))
        (fun t => t.reg 2 == [5, 0]) = true := by decide

end Sys2Proof.Tests
end

/-! ## The block's state across a step (10_state.md)

PROOFS. What a host write, a completion and a step can do to the architectural state, each said once;
the statements of 10_state.md follow from these by cases. -/

namespace Sys2Proof.Machine

/-! ### The result flags, and what each command names -/

/-- The value of a result flag (10_state.md R26, R27). -/
def Status.flag (st : Status) : Flag → Bool
  | .z => st.z
  | .odd => st.odd
  | .lt => st.lt
  | .gt => st.gt

@[simp] theorem Status.flag_setFlag (st : Status) (f f' : Flag) (b : Bool) :
    (st.setFlag f b).flag f' = if f' = f then b else st.flag f' := by
  cases f <;> cases f' <;> rfl

theorem State.sameFlags_iff (s t : State) :
    s.SameFlags t ↔ ∀ f, t.status.flag f = s.status.flag f := by
  constructor
  · rintro ⟨hz, hodd, hlt, hgt⟩ f
    cases f <;> assumption
  · intro h
    exact ⟨h .z, h .odd, h .lt, h .gt⟩

/-- The flags a command writes (10_state.md R26, R27), as `destsOf` lists its registers. -/
def flagsOf : Instr → List Flag
  | .cmp _ _ => [.lt, .gt]
  | .tstz _ => [.z]
  | .tsto _ => [.odd]
  | _ => []

theorem z_mem_flagsOf {i : Instr} (h : .z ∈ flagsOf i) : ∃ r, i = .tstz r := by
  cases i with
  | tstz r => exact ⟨r, rfl⟩
  | _ => simp [flagsOf] at h

theorem odd_mem_flagsOf {i : Instr} (h : .odd ∈ flagsOf i) : ∃ r, i = .tsto r := by
  cases i with
  | tsto r => exact ⟨r, rfl⟩
  | _ => simp [flagsOf] at h

theorem compare_mem_flagsOf {i : Instr} (h : .lt ∈ flagsOf i ∨ .gt ∈ flagsOf i) :
    ∃ a b, i = .cmp a b := by
  cases i with
  | cmp a b => exact ⟨a, b, rfl⟩
  | _ => simp [flagsOf] at h

/-! ### A commit, field by field -/

section Commit
variable (s u : State)

@[simp] theorem State.writeRegs_status (regw : List (Reg × Words)) :
    (s.writeRegs regw).status = s.status := by
  induction regw generalizing s with
  | nil => rfl
  | cons p l ih => exact ih (s.setReg p.1 p.2)

@[simp] theorem State.writeRegs_cfg (regw : List (Reg × Words)) :
    (s.writeRegs regw).cfg = s.cfg := by
  induction regw generalizing s with
  | nil => rfl
  | cons p l ih => exact ih (s.setReg p.1 p.2)

@[simp] theorem State.reg_writeFlags (flagw : List (Flag × Bool)) (r : Reg) :
    (s.writeFlags flagw).reg r = s.reg r := by
  induction flagw generalizing s with
  | nil => rfl
  | cons p l ih => exact ih (s.setFlag p.1 p.2)

/-- A flag that is not named keeps its value. -/
theorem State.flag_writeFlags_of_not_named (flagw : List (Flag × Bool)) (f : Flag)
    (h : f ∉ flagw.map Prod.fst) : (s.writeFlags flagw).status.flag f = s.status.flag f := by
  induction flagw generalizing s with
  | nil => rfl
  | cons p l ih =>
    simp only [List.map_cons, List.mem_cons, not_or] at h
    have hl := ih (s.setFlag p.1 p.2) h.2
    rwa [State.setFlag_status, Status.flag_setFlag, if_neg h.1] at hl

/-- One list of flag writes gives two states the same flags, where they were the same before. -/
theorem State.flag_writeFlags_congr (flagw : List (Flag × Bool)) (f : Flag)
    (h : s.status.flag f = u.status.flag f) :
    (s.writeFlags flagw).status.flag f = (u.writeFlags flagw).status.flag f := by
  induction flagw generalizing s u with
  | nil => exact h
  | cons p l ih =>
    refine ih (s.setFlag p.1 p.2) (u.setFlag p.1 p.2) ?_
    simp only [State.setFlag_status, Status.flag_setFlag, h]

/-- One list of register writes gives two states the same value in a register that it names, or in
which they agreed before. -/
theorem State.reg_writeRegs_congr (regw : List (Reg × Words)) (r : Reg)
    (h : r ∈ regw.map Prod.fst ∨ s.reg r = u.reg r) :
    (s.writeRegs regw).reg r = (u.writeRegs regw).reg r := by
  induction regw generalizing s u with
  | nil => exact h.resolve_left (List.not_mem_nil)
  | cons p l ih =>
    refine ih (s.setReg p.1 p.2) (u.setReg p.1 p.2) ?_
    simp only [List.map_cons, List.mem_cons] at h
    rw [State.reg_setReg, State.reg_setReg]
    by_cases hp : r = p.1
    · exact .inr (by rw [if_pos hp, if_pos hp])
    · rw [if_neg hp, if_neg hp]
      exact h.imp_left fun hm => hm.resolve_left hp

variable (regw : List (Reg × Words)) (flagw : List (Flag × Bool))

theorem State.reg_commit_done (r : Reg) :
    (s.commit (.done regw flagw)).reg r = (s.writeRegs regw).reg r :=
  State.reg_writeFlags _ _ _

theorem State.flag_commit_done (f : Flag) :
    (s.commit (.done regw flagw)).status.flag f =
      ((s.writeRegs regw).writeFlags flagw).status.flag f := by
  cases f <;> rfl

theorem State.flag_commit_fail (code : BitVec 4) (f : Flag) :
    (s.commit (.fail code)).status.flag f = s.status.flag f := by
  cases f <;> rfl

end Commit

/-! ### Execute (30_encoding.md R95): what the result of a command depends on and names -/

/-- s and u agree on all that command i reads (10_state.md R22, R23). -/
structure State.AgreesFor (s u : State) (i : Instr) : Prop where
  cfg : s.cfg = u.cfg
  src : ∀ r ∈ sourcesOf i, s.reg r = u.reg r
  arg : readsArg i = true → s.arg = u.arg

theorem State.AgreesFor.regs_of_one {s u : State} {i : Instr} {a : Reg} (h : s.AgreesFor u i)
    (hs : sourcesOf i = [a]) : s.reg a = u.reg a :=
  h.src a (by simp [hs])

theorem State.AgreesFor.regs_of_two {s u : State} {i : Instr} {a b : Reg} (h : s.AgreesFor u i)
    (hs : sourcesOf i = [a, b]) : s.reg a = u.reg a ∧ s.reg b = u.reg b :=
  ⟨h.src a (by simp [hs]), h.src b (by simp [hs])⟩

/-- f is an Execute for command i: a success names the command's registers and flags, a failure is a
division by zero, and the result depends on what the command reads alone. -/
structure ExecutedBy (i : Instr) (f : State → Result) : Prop where
  names : ∀ s regw flagw, f s = .done regw flagw →
    regw.map Prod.fst = destsOf i ∧ flagw.map Prod.fst = flagsOf i
  fails : ∀ s code, f s = .fail code → code = divZero ∧ ∃ r, divisorOf i = some r ∧ s.val r = 0
  reads : ∀ s u : State, s.AgreesFor u i → f s = f u

section Execute
variable {i : Instr}

theorem executedBy_one (rd : Reg) (ws : State → Words) (hd : destsOf i = [rd])
    (hf : flagsOf i = []) (hr : ∀ s u : State, s.AgreesFor u i → ws s = ws u) :
    ExecutedBy i fun s => .done [(rd, ws s)] [] where
  names s regw flagw h := by
    cases h
    exact ⟨hd.symm, hf.symm⟩
  fails s code h := by cases h
  reads s u h := by rw [hr s u h]

theorem executedBy_flags (flagw : State → List (Flag × Bool)) (hd : destsOf i = [])
    (hf : ∀ s, (flagw s).map Prod.fst = flagsOf i)
    (hr : ∀ s u : State, s.AgreesFor u i → flagw s = flagw u) :
    ExecutedBy i fun s => .done [] (flagw s) where
  names s regw flagw' h := by
    cases h
    exact ⟨hd.symm, hf s⟩
  fails s code h := by cases h
  reads s u h := by rw [hr s u h]

/-- A division fails exactly at a zero divisor, and else makes its writes (42_divider.md R130, R135). -/
theorem divResult_cases (a b : Nat) (regw : Nat → Nat → List (Reg × Words)) :
    (b = 0 ∧ divResult a b regw = .fail divZero) ∨
      (b ≠ 0 ∧ divResult a b regw = .done (regw (a / b) (a % b)) []) := by
  by_cases hb : b = 0
  · exact .inl ⟨hb, by simp [divResult, divCore, hb]⟩
  · exact .inr ⟨hb, by simp [divResult, divCore, hb]⟩

theorem executedBy_div (rs1 rs2 : Reg) (regw : State → Nat → Nat → List (Reg × Words))
    (hs : sourcesOf i = [rs1, rs2]) (hv : divisorOf i = some rs2) (hf : flagsOf i = [])
    (hd : ∀ s q r, (regw s q r).map Prod.fst = destsOf i)
    (hr : ∀ s u : State, s.cfg = u.cfg → regw s = regw u) :
    ExecutedBy i fun s => divResult (s.val rs1) (s.val rs2) (regw s) where
  names s regw' flagw h := by
    rcases divResult_cases (s.val rs1) (s.val rs2) (regw s) with ⟨-, he⟩ | ⟨-, he⟩
    · rw [he] at h; cases h
    · rw [he] at h; cases h
      exact ⟨hd _ _ _, hf.symm⟩
  fails s code h := by
    rcases divResult_cases (s.val rs1) (s.val rs2) (regw s) with ⟨hz, he⟩ | ⟨-, he⟩
    · rw [he] at h; cases h
      exact ⟨rfl, rs2, hv, hz⟩
    · rw [he] at h; cases h
  reads s u h := by
    simp only [State.val, h.regs_of_two hs, hr s u h.cfg]

/-- The completion of a well-formed command commits what an Execute for it gives (30_encoding.md R94,
R95). -/
theorem exec_executedBy (i : Instr) (h : i.wf = true) :
    ∃ f, (∀ s, exec i s = complete s (f s)) ∧ ExecutedBy i f := by
  cases i with
  | add rd rs1 rs2 =>
    exact ⟨_, fun _ => rfl, executedBy_one rd _ rfl rfl fun s u h => by
      simp [State.fit, State.val, h.cfg, h.regs_of_two rfl]⟩
  | adds rd rs1 =>
    exact ⟨_, fun _ => rfl, executedBy_one rd _ rfl rfl fun s u h => by
      simp [State.fit, State.val, h.cfg, h.regs_of_one rfl, h.arg rfl]⟩
  | sub rd rs1 rs2 =>
    exact ⟨_, fun _ => rfl, executedBy_one rd _ rfl rfl fun s u h => by
      simp [h.regs_of_two rfl]⟩
  | subs rd rs1 =>
    exact ⟨_, fun _ => rfl, executedBy_one rd _ rfl rfl fun s u h => by
      simp [h.regs_of_one rfl, h.arg rfl]⟩
  | mul rd rs1 rs2 =>
    exact ⟨_, fun _ => rfl, executedBy_one rd _ rfl rfl fun s u h => by
      simp [State.fit, State.val, h.cfg, h.regs_of_two rfl]⟩
  | divrem rq rr rs1 rs2 =>
    have hne : rq ≠ rr := by simpa [Instr.wf] using h
    exact ⟨_, fun _ => if_neg hne, executedBy_div rs1 rs2 _ rfl rfl rfl (fun _ _ _ => rfl)
      fun s u h => by simp [State.fit, h]⟩
  | div rd rs1 rs2 =>
    exact ⟨_, fun _ => rfl, executedBy_div rs1 rs2 _ rfl rfl rfl (fun _ _ _ => rfl)
      fun s u h => by simp [State.fit, h]⟩
  | mod rd rs1 rs2 =>
    exact ⟨_, fun _ => rfl, executedBy_div rs1 rs2 _ rfl rfl rfl (fun _ _ _ => rfl)
      fun s u h => by simp [State.fit, h]⟩
  | pow rd rs1 rs2 =>
    exact ⟨_, fun _ => rfl, executedBy_one rd _ rfl rfl fun s u h => by
      simp [State.fit, State.val, State.modulus, h.cfg, h.regs_of_two rfl]⟩
  | pows rd rs1 =>
    exact ⟨_, fun _ => rfl, executedBy_one rd _ rfl rfl fun s u h => by
      simp [State.fit, State.val, State.modulus, h.cfg, h.regs_of_one rfl, h.arg rfl]⟩
  | cmp rs1 rs2 =>
    exact ⟨_, fun _ => rfl, executedBy_flags _ rfl (fun _ => rfl) fun s u h => by
      simp [State.val, h.regs_of_two rfl]⟩
  | tstz rs1 =>
    exact ⟨_, fun _ => rfl, executedBy_flags _ rfl (fun _ => rfl) fun s u h => by
      simp [State.val, h.regs_of_one rfl]⟩
  | tsto rs1 =>
    exact ⟨_, fun _ => rfl, executedBy_flags _ rfl (fun _ => rfl) fun s u h => by
      simp [State.val, h.regs_of_one rfl]⟩
  | neg rd rs1 =>
    exact ⟨_, fun _ => rfl, executedBy_one rd _ rfl rfl fun s u h => by simp [h.regs_of_one rfl]⟩
  | not rd rs1 =>
    exact ⟨_, fun _ => rfl, executedBy_one rd _ rfl rfl fun s u h => by simp [h.regs_of_one rfl]⟩
  | shl1 rd rs1 =>
    exact ⟨_, fun _ => rfl, executedBy_one rd _ rfl rfl fun s u h => by
      simp [State.fit, State.val, h.cfg, h.regs_of_one rfl]⟩
  | shr1 rd rs1 =>
    exact ⟨_, fun _ => rfl, executedBy_one rd _ rfl rfl fun s u h => by
      simp [State.fit, State.val, h.cfg, h.regs_of_one rfl]⟩
  | mov rd rs1 =>
    exact ⟨_, fun _ => rfl, executedBy_one rd _ rfl rfl fun s u h => by simp [h.regs_of_one rfl]⟩
  | clr rd =>
    exact ⟨_, fun _ => rfl, executedBy_one rd _ rfl rfl fun s u h => by simp [State.fit, h.cfg]⟩

end Execute

/-! ### A completion, field by field -/

section Completion
variable {i : Instr} {s t : State}

/-- A completion that has a next state commits the result of an Execute for its command. -/
theorem exec_next_executedBy (h : exec i s = .next t) :
    ∃ f, t = s.commit (f s) ∧ (∀ u w, exec i u = .next w → w = u.commit (f u)) ∧ ExecutedBy i f := by
  obtain ⟨f, hf, hi⟩ := exec_executedBy i (wf_of_exec_next h)
  have hn : ∀ u w, exec i u = .next w → w = u.commit (f u) := fun u w hw => by
    rw [hf u] at hw; cases hw; rfl
  exact ⟨f, hn s t h, hn, hi⟩

theorem exec_sameRest (h : exec i s = .next t) : s.SameRest t := by
  obtain ⟨res, rfl, -⟩ := exec_next h
  exact (s.commit_spec res).1

theorem exec_idle (h : exec i s = .next t) : t.pend = none ∧ t.status.busy = false := by
  obtain ⟨res, rfl, -⟩ := exec_next h
  obtain ⟨-, hp, hb, -⟩ := s.commit_spec res
  exact ⟨hp, hb⟩

/-- A completion leaves every register that is not a destination (10_state.md R22). -/
theorem exec_reg_of_not_dest (h : exec i s = .next t) {r : Reg} (hr : r ∉ destsOf i) :
    t.reg r = s.reg r := by
  obtain ⟨res, rfl, hres, -⟩ := exec_next h
  obtain ⟨-, -, -, -, hreg⟩ := s.commit_spec res
  exact hreg r fun regw flagw e => (hres regw flagw e).1 ▸ hr

theorem exec_regsWf (h : exec i s = .next t) (hw : s.RegsWf) : t.RegsWf := by
  have hcfg : t.cfg = s.cfg := (exec_sameRest h).2.2.1
  obtain ⟨res, rfl, hres, -⟩ := exec_next h
  intro r
  rw [hcfg]
  cases res with
  | fail code => exact hw r
  | done regw flagw =>
    rw [State.reg_commit_done, ← s.writeRegs_cfg regw]
    exact State.regsWf_writeRegs regw s hw ((hres regw flagw rfl).2 hw) r

/-- A completion leaves every flag its command does not write (10_state.md R26, R27). -/
theorem exec_flag_of_not_named (h : exec i s = .next t) {f : Flag} (hf : f ∉ flagsOf i) :
    t.status.flag f = s.status.flag f := by
  obtain ⟨g, rfl, -, hg⟩ := exec_next_executedBy h
  cases hres : g s with
  | fail code => exact s.flag_commit_fail code f
  | done regw flagw =>
    rw [State.flag_commit_done, State.flag_writeFlags_of_not_named, State.writeRegs_status]
    rwa [(hg.names s regw flagw hres).2]

/-- A completion ends with ERR = 0, or with DIVZERO where the divisor is zero (10_state.md R28,
42_divider.md R135). -/
theorem exec_err (h : exec i s = .next t) :
    t.status.err = 0 ∨ t.status.err = 1 ∧ ∃ r, divisorOf i = some r ∧ s.val r = 0 := by
  obtain ⟨g, rfl, -, hg⟩ := exec_next_executedBy h
  cases hres : g s with
  | done regw flagw => exact .inl rfl
  | fail code =>
    obtain ⟨rfl, hdiv⟩ := hg.fails s code hres
    exact .inr ⟨rfl, hdiv⟩

theorem exec_tstz_z {r : Reg} (h : exec (.tstz r) s = .next t) :
    t.status.z = decide (s.val r = 0) := by
  cases h; rfl

theorem exec_tsto_odd {r : Reg} (h : exec (.tsto r) s = .next t) :
    t.status.odd = (s.val r).testBit 0 := by
  cases h; rfl

theorem exec_cmp_lt_gt {a b : Reg} (h : exec (.cmp a b) s = .next t) :
    t.status.lt = decide (s.val a < s.val b) ∧ t.status.gt = decide (s.val b < s.val a) := by
  cases h; exact ⟨rfl, rfl⟩

end Completion

/-! ### The offset map (20_memory.md R52) -/

section Offsets
variable (cfg : Config)

/-- N is from 1 to 512 (00_scope.md R8). -/
theorem numWords_bounds : 1 ≤ cfg.numWords ∧ cfg.numWords ≤ 512 := by
  simp only [Config.numWords]; omega

@[simp] theorem targetOf_id : targetOf cfg 0x00 = .id := rfl
@[simp] theorem targetOf_status : targetOf cfg 0x08 = .status := rfl
@[simp] theorem targetOf_cmd : targetOf cfg 0x10 = .cmd := rfl
@[simp] theorem targetOf_arg : targetOf cfg 0x18 = .arg := rfl

theorem opwOffset_bounds {r : Reg} {k : Nat} (hk : k < cfg.numWords) :
    opwOffset r k < 0x20000 ∧ opwOffset r k % 8 = 0 := by
  have hN := (numWords_bounds cfg).2
  have hr := r.isLt
  unfold opwOffset
  omega

theorem targetOf_opwOffset {r : Reg} {k : Nat} (hk : k < cfg.numWords) :
    targetOf cfg (opwOffset r k) = .opw r k := by
  have hN := (numWords_bounds cfg).2
  have hr := r.isLt
  have hword : opwOffset r k % 0x1000 / 8 = k := by unfold opwOffset; omega
  have hreg : opwOffset r k / 0x1000 % 8 = r.val := by unfold opwOffset; omega
  have hwin : 0x10000 ≤ opwOffset r k ∧ opwOffset r k < 0x18000 := by unfold opwOffset; omega
  unfold targetOf
  rw [if_neg (by omega), if_neg (by omega), if_neg (by omega), if_neg (by omega), if_pos hwin,
    if_pos (by rwa [hword])]
  simp only [hword, hreg]

/-- What an aligned offset is. -/
theorem targetOf_cases {off : Nat} (h8 : off % 8 = 0) :
    (off = 0x00 ∨ targetOf cfg off = .reserved) ∨ off = 0x08 ∨ off = 0x10 ∨ off = 0x18 ∨
      ∃ r k, k < cfg.numWords ∧ off = opwOffset r k := by
  by_cases h0 : off = 0x00
  · exact .inl (.inl h0)
  by_cases h1 : off = 0x08
  · exact .inr (.inl h1)
  by_cases h2 : off = 0x10
  · exact .inr (.inr (.inl h2))
  by_cases h3 : off = 0x18
  · exact .inr (.inr (.inr (.inl h3)))
  by_cases hw : (0x10000 ≤ off ∧ off < 0x18000) ∧ off % 0x1000 / 8 < cfg.numWords
  · refine .inr (.inr (.inr (.inr ⟨⟨off / 0x1000 % 8, Nat.mod_lt _ (by decide)⟩,
      off % 0x1000 / 8, hw.2, ?_⟩)))
    simp only [opwOffset]
    omega
  · refine .inl (.inr ?_)
    unfold targetOf
    rw [if_neg h0, if_neg h1, if_neg h2, if_neg h3]
    split
    · next hwin => exact if_neg fun hk => hw ⟨hwin, hk⟩
    · rfl

end Offsets

/-! ### A host write, and what it makes of the block (20_memory.md R58, R59) -/

/-- The offsets whose writes are dropped while BUSY = 1 (20_memory.md R59). -/
abbrev Droppable (cfg : Config) (off : Nat) : Prop :=
  off = 0x10 ∨ off = 0x18 ∨ ∃ r i, i < cfg.numWords ∧ off = opwOffset r i

/-- What a supported host write of v to the offset off can make of the block. -/
inductive State.WriteEffect (s : State) (off : Nat) (v : Word) : State → Prop
  /-- A write to ID or to a reserved offset (10_state.md R29, 20_memory.md R56). -/
  | ignored : s.WriteEffect off v s
  /-- A write to STATUS (10_state.md R24). -/
  | status (hoff : off = 0x08) : s.WriteEffect off v { s with status := s.status.hostWrite v }
  /-- A write the busy block drops (20_memory.md R59). -/
  | dropped (hoff : Droppable s.cfg off) (hb : s.status.busy = true) :
    s.WriteEffect off v s.setOvr
  /-- A rejected command (30_encoding.md R92). -/
  | rejected (r : Reject) (hoff : off = 0x10) (hb : s.status.busy = false)
      (hd : decode v = .reject r) : s.WriteEffect off v (s.raiseError r.code)
  /-- An accepted command (30_encoding.md R92). -/
  | accepted (c : Instr) (hoff : off = 0x10) (hb : s.status.busy = false)
      (hd : decode v = .accept c) : s.WriteEffect off v (s.latch c)
  /-- A write to ARG of the idle block (10_state.md R23). -/
  | arg (hoff : off = 0x18) (hb : s.status.busy = false) : s.WriteEffect off v { s with arg := v }
  /-- A write to an operand word of the idle block (20_memory.md R53). -/
  | word (r : Reg) (k : Nat) (hk : k < s.cfg.numWords) (hoff : off = opwOffset r k)
      (hb : s.status.busy = false) : s.WriteEffect off v (s.setWord r k v)

section HostWrite
variable (s : State) (v : Word)

theorem State.poke_arg_idle (hb : s.status.busy = false) : s.poke v .arg = { s with arg := v } := by
  simp [State.poke, hb]

theorem State.poke_opw_idle (r : Reg) (k : Nat) (hb : s.status.busy = false) :
    s.poke v (.opw r k) = s.setWord r k v := by
  simp [State.poke, hb]

/-- The busy block drops every droppable write, setting OVR (20_memory.md R59). -/
theorem State.poke_dropped {off : Nat} (hoff : Droppable s.cfg off) (hb : s.status.busy = true) :
    s.poke v (targetOf s.cfg off) = s.setOvr := by
  rcases hoff with rfl | rfl | ⟨r, k, hk, rfl⟩
  · simp [State.poke, State.offer, hb]
  · simp [State.poke, hb]
  · simp [State.poke, targetOf_opwOffset s.cfg hk, hb]

/-- A write to an aligned offset has one of the listed effects. -/
theorem State.writeEffect_poke {off : Nat} (h8 : off % 8 = 0) :
    s.WriteEffect off v (s.poke v (targetOf s.cfg off)) := by
  by_cases hdrop : Droppable s.cfg off ∧ s.status.busy = true
  · rw [s.poke_dropped v hdrop.1 hdrop.2]
    exact .dropped hdrop.1 hdrop.2
  have hidle : Droppable s.cfg off → s.status.busy = false := by simpa using hdrop
  rcases targetOf_cases s.cfg h8 with (rfl | hres) | rfl | rfl | rfl | ⟨r, k, hk, rfl⟩
  · exact .ignored
  · rw [hres]; exact .ignored
  · exact .status rfl
  · have hb := hidle (.inl rfl)
    rcases s.offer_cases v with ⟨hb', -⟩ | ⟨r, -, hd, he⟩ | ⟨c, -, hd, he⟩
    · rw [hb] at hb'; cases hb'
    · rw [targetOf_cmd, State.poke, he]; exact .rejected r rfl hb hd
    · rw [targetOf_cmd, State.poke, he]; exact .accepted c rfl hb hd
  · have hb := hidle (.inr (.inl rfl))
    rw [targetOf_arg, s.poke_arg_idle v hb]
    exact .arg rfl hb
  · have hb := hidle (.inr (.inr ⟨r, k, hk, rfl⟩))
    rw [targetOf_opwOffset s.cfg hk, s.poke_opw_idle v r k hb]
    exact .word r k hk rfl hb

/-- A write does not look at what is still to arrive. -/
theorem State.poke_withInbox (tg : Target) (rest : List Event) :
    ({ s with inbox := rest } : State).poke v tg = { s.poke v tg with inbox := rest } := by
  cases tg with
  | cmd =>
    simp only [State.poke, State.offer]
    split
    · rfl
    · split <;> rfl
  | arg => simp only [State.poke]; split <;> rfl
  | opw r k => simp only [State.poke]; split <;> rfl
  | _ => rfl

/-- A supported write of the region is a write to an aligned offset of it (20_memory.md R51, R57). -/
theorem eq_memWrite_of_supported {cfg : Config} {a : Access} {v : Word} (hd : a.dir = .write v)
    (hs : selected cfg a.addr = true) (hp : supported cfg a = true) :
    ∃ off, off < 0x20000 ∧ off % 8 = 0 ∧ a = memWrite cfg off v := by
  obtain ⟨addr, size, lanes, dir⟩ := a
  simp only [selected, supported, Bool.and_eq_true, decide_eq_true_eq, beq_iff_eq] at hd hs hp
  obtain ⟨⟨rfl, rfl⟩, h8⟩ := hp
  subst hd
  exact ⟨addr - cfg.base, by omega, h8, by simp [memWrite, Nat.add_sub_cancel' hs.1]⟩

end HostWrite

/-! ### A step, and what it makes of the block -/

section Step
variable {s t : State}

theorem resetStep_of_resets (h : step s = .next t) (hr : s.Resets) : s.resetStep.SameArch t := by
  obtain ⟨rest, hin⟩ := List.head?_eq_some_iff.mp hr
  rw [step_cons s hin] at h
  cases h
  exact ⟨rfl, rfl, rfl, rfl, rfl⟩

theorem exec_of_completes {i : Instr} (h : step s = .next t) (hc : s.Completes i) :
    ∃ rest, exec i { s with inbox := rest } = .next t := by
  obtain ⟨hb, hp, hin | hin⟩ := hc
  · rw [step_nil s hin, coreTurn_pending s hb hp] at h
    exact ⟨s.inbox, h⟩
  · obtain ⟨rest, hin⟩ := List.head?_eq_some_iff.mp hin
    rw [step_cons s hin] at h
    exact ⟨rest, (coreTurn_pending { s with inbox := rest } hb hp).symm.trans h⟩

theorem poke_of_hostWrites {off : Nat} {v : Word} (h : step s = .next t) (hw : s.HostWrites off v)
    (hoff : off < 0x20000) (h8 : off % 8 = 0) :
    (s.poke v (targetOf s.cfg off)).SameArch t := by
  obtain ⟨rest, hin⟩ := List.head?_eq_some_iff.mp hw
  have ha := State.access_memWrite { s with inbox := rest } off v hoff h8
  rw [State.poke_withInbox] at ha
  rw [step_cons s hin] at h
  cases h
  exact ha ▸ ⟨rfl, rfl, rfl, rfl, rfl⟩

/-- What a step can make of the block: a reset, a completion, a host write's effect, or nothing. -/
inductive State.StepEffect (s t : State) : Prop
  | reset (hr : s.Resets) (ht : s.resetStep.SameArch t)
  | completion (i : Instr) (rest : List Event) (hc : s.Completes i)
      (he : exec i { s with inbox := rest } = .next t)
  | hostWrite (off : Nat) (v : Word) (u : State) (hw : s.HostWrites off v)
      (hu : s.WriteEffect off v u) (ht : u.SameArch t)
  | quiet (ht : s.SameArch t)

theorem stepEffect (h : step s = .next t) : s.StepEffect t := by
  rcases step_cases s h with ⟨a, rest, hin, ht⟩ | ⟨rest, hin, -⟩ | ⟨i, rest, hin, hb, hp, he⟩ |
    ⟨rest, -, -, rfl⟩
  · rcases State.access_cases { s with inbox := rest } a with ⟨rep, he⟩ | ⟨v, hd, hs, hp, -⟩
    · exact .quiet (by rw [ht, he]; exact ⟨rfl, rfl, rfl, rfl, rfl⟩)
    · obtain ⟨off, hoff, h8, rfl⟩ := eq_memWrite_of_supported hd hs hp
      have hw : s.HostWrites off v := by rw [State.HostWrites, hin]; rfl
      exact .hostWrite off v _ hw (s.writeEffect_poke v h8) (poke_of_hostWrites h hw hoff h8)
  · have hr : s.Resets := by rw [State.Resets, hin]; rfl
    exact .reset hr (resetStep_of_resets h hr)
  · refine .completion i rest ⟨hb, hp, ?_⟩ he
    rcases hin with hin | ⟨hin, -⟩
    · exact .inr (by rw [hin]; rfl)
    · exact .inl hin
  · exact .quiet ⟨rfl, rfl, rfl, rfl, rfl⟩

/-- No step changes the configuration (10_state.md R34). -/
theorem step_cfg (h : step s = .next t) : t.cfg = s.cfg := by
  cases stepEffect h with
  | reset hr ht => exact ht.2.2.2.2
  | completion i rest hc he => exact (exec_sameRest he).2.2.1
  | hostWrite off v u hw hu ht => exact ht.2.2.2.2.trans (by cases hu <;> rfl)
  | quiet ht => exact ht.2.2.2.2

/-- A host write changes no result flag (10_state.md R26, R27). -/
theorem State.WriteEffect.flag {off : Nat} {v : Word} {u : State} (hu : s.WriteEffect off v u)
    (f : Flag) : u.status.flag f = s.status.flag f := by
  cases hu <;> cases f <;> rfl

/-- A result flag changes at a reset, or at the completion of a command that writes it. -/
theorem step_flag_ne (h : step s = .next t) {f : Flag} (hne : t.status.flag f ≠ s.status.flag f) :
    s.Resets ∨ ∃ i, s.Completes i ∧ f ∈ flagsOf i := by
  cases stepEffect h with
  | reset hr ht => exact .inl hr
  | completion i rest hc he =>
    refine .inr ⟨i, hc, ?_⟩
    by_contra hf
    exact hne (exec_flag_of_not_named he hf)
  | hostWrite off v u hw hu ht =>
    obtain ⟨-, -, hst, -, -⟩ := ht
    exact absurd (by rw [hst, hu.flag f]) hne
  | quiet ht =>
    obtain ⟨-, -, hst, -, -⟩ := ht
    exact absurd (by rw [hst]) hne

end Step

/-! ### The invariant -/

/-- Every row of the opcode map but DIVREM's makes a well-formed command, and DIVREM's uses RD and RD2
and makes one of two different registers (30_encoding.md R84, R89). -/
theorem wf_build_of_mem_opMap {row : OpRow} (h : row ∈ opMap) (rd rs1 rs2 rd2 : Reg) :
    (row.opc ≠ 0x20 ∧ (row.build rd rs1 rs2 rd2).wf = true) ∨
      (row.opc = 0x20 ∧ row.usesRd = true ∧ row.usesRd2 = true ∧
        (row.build rd rs1 rs2 rd2).wf = (rd != rd2)) := by
  simp only [opMap, List.mem_cons, List.not_mem_nil, or_false] at h
  rcases h with rfl | rfl | rfl | rfl | rfl | rfl | rfl | rfl | rfl | rfl | rfl | rfl | rfl | rfl |
    rfl | rfl | rfl | rfl | rfl <;> simp [Instr.wf]

/-- Decode accepts well-formed commands only (30_encoding.md R89, R90). -/
theorem wf_of_decode_accept {v : Word} {i : Instr} (h : decode v = .accept i) : i.wf = true := by
  unfold decode at h
  split at h
  · cases h
  next row hrow =>
  split_ifs at h with hres hunused hlarge halias
  cases h
  rcases wf_build_of_mem_opMap (List.mem_of_find?_eq_some hrow) (regOfField (rdField v))
    (regOfField (rs1Field v)) (regOfField (rs2Field v)) (regOfField (rd2Field v)) with
    ⟨-, hwf⟩ | ⟨hopc, hrd, hrd2, hwf⟩
  · exact hwf
  · simp only [usedFieldTooLarge, hrd, hrd2, Bool.true_and, Bool.or_eq_true, decide_eq_true_eq,
      not_or, not_le] at hlarge
    obtain ⟨⟨⟨hlt, -⟩, -⟩, hlt2⟩ := hlarge
    rw [hwf, bne_iff_ne]
    intro he
    refine halias ⟨hopc, ?_⟩
    rw [← fieldOfReg_regOfField _ hlt, ← fieldOfReg_regOfField _ hlt2, he]

theorem reject_code_le (r : Reject) : r.code.toNat ≤ 5 := by
  cases r <;> decide

section Invariant
variable {s t : State}

/-- The invariant is a matter of the architectural state (10_state.md R34). -/
theorem State.inv_congr (h : s.SameArch t) (hi : s.Inv) : t.Inv := by
  obtain ⟨hx, -, hst, hp, hcfg⟩ := h
  obtain ⟨hregs, hlatch, herr, hcmp⟩ := hi
  refine ⟨fun r => ?_, ?_, ?_, ?_⟩
  · rw [State.reg_congr hx, hcfg]; exact hregs r
  · rwa [State.LatchWf, hst, hp]
  · rwa [State.ErrWf, hst]
  · rwa [State.CompareWf, hst]

theorem State.inv_resetStep (s : State) : s.resetStep.Inv :=
  ⟨fun r => by simp, ⟨rfl, rfl⟩, Nat.zero_le 5, by simp [Status.reset]⟩

/-- Every effect of a host write keeps the invariant. -/
theorem State.WriteEffect.inv {off : Nat} {v : Word} {u : State} (hu : s.WriteEffect off v u)
    (hi : s.Inv) : u.Inv := by
  obtain ⟨hregs, hlatch, herr, hcmp⟩ := hi
  cases hu with
  | ignored => exact ⟨hregs, hlatch, herr, hcmp⟩
  | status => exact ⟨hregs, hlatch, herr, hcmp⟩
  | dropped => exact ⟨hregs, hlatch, herr, hcmp⟩
  | rejected r => exact ⟨hregs, hlatch, reject_code_le r, hcmp⟩
  | accepted c _ _ hd => exact ⟨hregs, ⟨rfl, by simpa using wf_of_decode_accept hd⟩, herr, hcmp⟩
  | arg => exact ⟨hregs, hlatch, herr, hcmp⟩
  | word r k =>
    refine ⟨fun r' => ?_, hlatch, herr, hcmp⟩
    rw [State.setWord, State.reg_setReg]
    split
    · rw [List.length_set]; exact hregs r
    · exact hregs r'

/-- A completion keeps LT and GT apart: CMP writes both, every other command neither
(10_state.md R27). -/
theorem exec_compareWf {i : Instr} (h : exec i s = .next t) (hs : s.CompareWf) : t.CompareWf := by
  by_cases hc : .lt ∈ flagsOf i ∨ .gt ∈ flagsOf i
  · obtain ⟨a, b, rfl⟩ := compare_mem_flagsOf hc
    obtain ⟨hlt, hgt⟩ := exec_cmp_lt_gt h
    rintro ⟨h1, h2⟩
    rw [hlt, decide_eq_true_eq] at h1
    rw [hgt, decide_eq_true_eq] at h2
    omega
  · rw [not_or] at hc
    have hlt : t.status.lt = s.status.lt := exec_flag_of_not_named h hc.1
    have hgt : t.status.gt = s.status.gt := exec_flag_of_not_named h hc.2
    rwa [State.CompareWf, hlt, hgt]

theorem exec_inv {i : Instr} (h : exec i s = .next t) (hi : s.Inv) : t.Inv := by
  obtain ⟨hregs, -, -, hcmp⟩ := hi
  obtain ⟨hp, hb⟩ := exec_idle h
  refine ⟨exec_regsWf h hregs, ⟨by rw [hp, hb]; rfl, by rw [hp]; rfl⟩, ?_, exec_compareWf h hcmp⟩
  rcases exec_err h with he | ⟨he, -⟩ <;> rw [State.ErrWf, he] <;> decide

end Invariant

/-- Settles O50, by what a step can make of the block: each effect keeps the invariant. -/
theorem everyStepKeepsTheInvariant : Obligations.EveryStepKeepsTheInvariant := by
  intro s t hi h
  cases stepEffect h with
  | reset hr ht => exact s.resetStep.inv_congr ht s.inv_resetStep
  | completion i rest hc he => exact exec_inv he hi
  | hostWrite off v u hw hu ht => exact u.inv_congr ht (hu.inv hi)
  | quiet ht => exact s.inv_congr ht hi

/-- Settles O53, from what any commit leaves unchanged. -/
theorem completionWritesOnlyDestinations : Obligations.CompletionWritesOnlyDestinations :=
  fun _ _ _ h => ⟨fun _ hr => exec_reg_of_not_dest h hr, exec_sameRest h⟩

/-- Settles O54: Execute gives both states one result, and one result commits alike. -/
theorem completionReadsOnlySources : Obligations.CompletionReadsOnlySources := by
  intro i s u t w hcfg hsrc harg ht hw
  obtain ⟨f, rfl, hf, hi⟩ := exec_next_executedBy ht
  obtain rfl := hf u w hw
  rw [← hi.reads s u ⟨hcfg, hsrc, harg⟩]
  cases hres : f s with
  | fail code =>
    have hcode : code ≠ 0 := by
      rw [(hi.fails s code hres).1]; decide
    exact ⟨rfl, fun he => absurd he hcode, id⟩
  | done regw flagw =>
    refine ⟨rfl, fun _ r hr => ?_, fun hsame => ?_⟩
    · rw [State.reg_commit_done, State.reg_commit_done]
      refine s.reg_writeRegs_congr u regw r (.inl ?_)
      rwa [(hi.names s regw flagw hres).1]
    · rw [State.sameFlags_iff] at hsame ⊢
      intro f
      rw [State.flag_commit_done, State.flag_commit_done]
      exact State.flag_writeFlags_congr _ _ flagw f (by simpa using hsame f)

/-! ### BUSY (10_state.md R25) -/

section Busy
variable {s t : State}

theorem step_busy_set (h : step s = .next t) (hs : s.status.busy = false)
    (ht : t.status.busy = true) :
    ∃ v c, s.HostWrites 0x10 v ∧ decode v = .accept c ∧ t.pend = some c := by
  have hne : s.status.busy ≠ true := by simp [hs]
  cases stepEffect h with
  | reset hr ht' =>
    obtain ⟨-, -, hst, -, -⟩ := ht'
    rw [hst] at ht; cases ht
  | completion i rest hc he => exact absurd hc.1 hne
  | hostWrite off v u hw hu ht' =>
    obtain ⟨-, -, hst, hp, -⟩ := ht'
    rw [hst] at ht
    cases hu with
    | accepted c hoff _ hd => exact ⟨v, c, hoff ▸ hw, hd, hp⟩
    | _ => exact absurd ht hne
  | quiet ht' =>
    obtain ⟨-, -, hst, -, -⟩ := ht'
    exact absurd (hst ▸ ht) hne

theorem step_busy_cleared (h : step s = .next t) (hs : s.status.busy = true)
    (ht : t.status.busy = false) : s.Resets ∨ ∃ i, s.Completes i := by
  have hne : s.status.busy ≠ false := by simp [hs]
  cases stepEffect h with
  | reset hr ht' => exact .inl hr
  | completion i rest hc he => exact .inr ⟨i, hc⟩
  | hostWrite off v u hw hu ht' =>
    obtain ⟨-, -, hst, -, -⟩ := ht'
    rw [hst] at ht
    cases hu with
    | accepted c => cases ht
    | _ => exact absurd ht hne
  | quiet ht' =>
    obtain ⟨-, -, hst, -, -⟩ := ht'
    exact absurd (hst ▸ ht) hne

/-- A CMD write of the idle block sets BUSY exactly when it is accepted (30_encoding.md R92). -/
theorem step_busy_of_cmd_write {v : Word} (h : step s = .next t) (hw : s.HostWrites 0x10 v)
    (hb : s.status.busy = false) : t.status.busy = true ↔ ∃ c, decode v = .accept c := by
  obtain ⟨-, -, hst, -, -⟩ := poke_of_hostWrites h hw (by decide) (by decide)
  rw [hst, targetOf_cmd, State.poke]
  rcases s.offer_cases v with ⟨hb', -⟩ | ⟨r, -, hd, he⟩ | ⟨c, -, hd, he⟩
  · rw [hb] at hb'; cases hb'
  · simp [he, hd, hb]
  · simp [he, hd]

end Busy

/-- Settles O55, one lemma for each of R25's clauses. -/
theorem busyChangesOnlyThere : Obligations.BusyChangesOnlyThere := by
  intro s t h
  refine ⟨step_busy_set h, step_busy_cleared h, fun i hc => ?_, fun hr => ?_,
    fun v hw hb => step_busy_of_cmd_write h hw hb⟩
  · obtain ⟨rest, he⟩ := exec_of_completes h hc
    exact (exec_idle he).2
  · obtain ⟨-, -, hst, -, -⟩ := resetStep_of_resets h hr
    rw [hst]; rfl

/-! ### The result flags (10_state.md R26, R27) -/

/-- Settles O56: the frame of the flags at a step, and the value each test writes. -/
theorem flagsChangeOnlyByTheirTest : Obligations.FlagsChangeOnlyByTheirTest := by
  intro s t h
  refine ⟨fun hne => ?_, fun hne => ?_, fun hne => ?_, fun r hc => ?_, fun r hc => ?_,
    fun a b hc => ?_, fun hr => ?_⟩
  · refine (step_flag_ne h (f := .z) hne).imp_right ?_
    rintro ⟨i, hc, hf⟩
    obtain ⟨r, rfl⟩ := z_mem_flagsOf hf
    exact ⟨r, hc⟩
  · refine (step_flag_ne h (f := .odd) hne).imp_right ?_
    rintro ⟨i, hc, hf⟩
    obtain ⟨r, rfl⟩ := odd_mem_flagsOf hf
    exact ⟨r, hc⟩
  · have hcmp : s.Resets ∨ ∃ i, s.Completes i ∧ (.lt ∈ flagsOf i ∨ .gt ∈ flagsOf i) := by
      rcases hne with hne | hne
      · exact (step_flag_ne h (f := .lt) hne).imp_right fun ⟨i, hc, hf⟩ => ⟨i, hc, .inl hf⟩
      · exact (step_flag_ne h (f := .gt) hne).imp_right fun ⟨i, hc, hf⟩ => ⟨i, hc, .inr hf⟩
    refine hcmp.imp_right ?_
    rintro ⟨i, hc, hf⟩
    obtain ⟨a, b, rfl⟩ := compare_mem_flagsOf hf
    exact ⟨a, b, hc⟩
  · obtain ⟨rest, he⟩ := exec_of_completes h hc
    exact (exec_tstz_z he :)
  · obtain ⟨rest, he⟩ := exec_of_completes h hc
    exact (exec_tsto_odd he :)
  · obtain ⟨rest, he⟩ := exec_of_completes h hc
    exact (exec_cmp_lt_gt he :)
  · obtain ⟨-, -, hst, -, -⟩ := resetStep_of_resets h hr
    rw [hst]
    exact ⟨rfl, rfl, rfl, rfl⟩

/-! ### ERR and OVR (10_state.md R28) -/

/-- A write of 1 to bit 12 clears OVR (10_state.md R24). -/
theorem Status.hostWrite_of_set (st : Status) {v : Word} (hv : v.getLsbD 12 = true) :
    st.hostWrite v = { st with ovr := false } := by
  simp only [Status.hostWrite, hv, Bool.not_true, Bool.and_false]

/-- A write of 0 to bit 12 does nothing (10_state.md R24). -/
theorem Status.hostWrite_of_clear (st : Status) {v : Word} (hv : v.getLsbD 12 = false) :
    st.hostWrite v = st := by
  simp only [Status.hostWrite, hv, Bool.not_false, Bool.and_true]

section ErrOvr
variable {s t : State} {off : Nat} {v : Word}

theorem offset_bounds_of_droppable {cfg : Config} (h : Droppable cfg off) :
    off < 0x20000 ∧ off % 8 = 0 := by
  rcases h with rfl | rfl | ⟨r, k, hk, rfl⟩
  · decide
  · decide
  · exact opwOffset_bounds cfg hk

theorem step_err_ne (h : step s = .next t) (hne : t.status.err ≠ s.status.err) :
    s.Resets ∨ (∃ i, s.Completes i) ∨
      ∃ v r, s.HostWrites 0x10 v ∧ s.status.busy = false ∧ decode v = .reject r := by
  cases stepEffect h with
  | reset hr ht => exact .inl hr
  | completion i rest hc he => exact .inr (.inl ⟨i, hc⟩)
  | hostWrite off v u hw hu ht =>
    obtain ⟨-, -, hst, -, -⟩ := ht
    rw [hst] at hne
    cases hu with
    | rejected r hoff hb hd => exact .inr (.inr ⟨v, r, hoff ▸ hw, hb, hd⟩)
    | _ => exact absurd rfl hne
  | quiet ht =>
    obtain ⟨-, -, hst, -, -⟩ := ht
    exact absurd (by rw [hst]) hne

theorem step_err_of_rejected {r : Reject} (h : step s = .next t) (hw : s.HostWrites 0x10 v)
    (hb : s.status.busy = false) (hd : decode v = .reject r) : t.status.err = r.code := by
  obtain ⟨-, -, hst, -, -⟩ := poke_of_hostWrites h hw (by decide) (by decide)
  simp [hst, State.poke, State.offer, hb, hd]

theorem completes_ovr {i : Instr} {rest : List Event}
    (he : exec i { s with inbox := rest } = .next t) : t.status.ovr = s.status.ovr := by
  obtain ⟨-, hovr, -⟩ := exec_sameRest he
  exact hovr

theorem step_ovr_set (h : step s = .next t) (hs : s.status.ovr = false)
    (ht : t.status.ovr = true) :
    s.status.busy = true ∧ ∃ off v, s.HostWrites off v ∧ Droppable s.cfg off := by
  have hne : s.status.ovr ≠ true := by simp [hs]
  cases stepEffect h with
  | reset hr ht' =>
    obtain ⟨-, -, hst, -, -⟩ := ht'
    rw [hst] at ht; cases ht
  | completion i rest hc he => exact absurd ((completes_ovr he).symm.trans ht) hne
  | hostWrite off v u hw hu ht' =>
    obtain ⟨-, -, hst, -, -⟩ := ht'
    rw [hst] at ht
    cases hu with
    | dropped hoff hb => exact ⟨hb, off, v, hw, hoff⟩
    | status => simp [Status.hostWrite, hs] at ht
    | _ => exact absurd ht hne
  | quiet ht' =>
    obtain ⟨-, -, hst, -, -⟩ := ht'
    exact absurd (hst ▸ ht) hne

theorem step_ovr_cleared (h : step s = .next t) (hs : s.status.ovr = true)
    (ht : t.status.ovr = false) :
    s.Resets ∨ ∃ v, s.HostWrites 0x08 v ∧ v.getLsbD 12 = true := by
  have hne : s.status.ovr ≠ false := by simp [hs]
  cases stepEffect h with
  | reset hr ht' => exact .inl hr
  | completion i rest hc he => exact absurd ((completes_ovr he).symm.trans ht) hne
  | hostWrite off v u hw hu ht' =>
    obtain ⟨-, -, hst, -, -⟩ := ht'
    rw [hst] at ht
    cases hu with
    | status hoff => exact .inr ⟨v, hoff ▸ hw, by simpa [Status.hostWrite, hs] using ht⟩
    | dropped => cases ht
    | _ => exact absurd ht hne
  | quiet ht' =>
    obtain ⟨-, -, hst, -, -⟩ := ht'
    exact absurd (hst ▸ ht) hne

theorem step_ovr_of_dropped (h : step s = .next t) (hw : s.HostWrites off v)
    (hb : s.status.busy = true) (hoff : Droppable s.cfg off) : t.status.ovr = true := by
  obtain ⟨hlt, h8⟩ := offset_bounds_of_droppable hoff
  obtain ⟨-, -, hst, -, -⟩ := poke_of_hostWrites h hw hlt h8
  rw [hst, s.poke_dropped v hoff hb]; rfl

theorem step_ovr_of_clear (h : step s = .next t) (hw : s.HostWrites 0x08 v)
    (hv : v.getLsbD 12 = true) : t.status.ovr = false := by
  obtain ⟨-, -, hst, -, -⟩ := poke_of_hostWrites h hw (by decide) (by decide)
  rw [hst, targetOf_status, State.poke, Status.hostWrite_of_set _ hv]

end ErrOvr

/-- Settles O57, one lemma for each of R28's clauses. -/
theorem errAndOvrChangeOnlyThere : Obligations.ErrAndOvrChangeOnlyThere := by
  intro s t h
  refine ⟨step_err_ne h, fun i hc => ?_, fun v r hw hb hd => ?_, step_ovr_set h,
    fun off v hw hb hoff => step_ovr_of_dropped h hw hb hoff, step_ovr_cleared h,
    fun v hw hv => step_ovr_of_clear h hw hv⟩
  · obtain ⟨rest, he⟩ := exec_of_completes h hc
    exact (exec_err he :)
  · have herr := step_err_of_rejected h hw hb hd
    exact ⟨herr, herr ▸ reject_code_le r⟩

/-! ### ARG and the registers (10_state.md R23, 70_reset_and_hazards.md R230) -/

section Registers
variable {s t : State}

theorem step_arg_ne (h : step s = .next t) (hne : t.arg ≠ s.arg) :
    s.Resets ∨ ∃ v, s.HostWrites 0x18 v ∧ s.status.busy = false ∧ t.arg = v := by
  cases stepEffect h with
  | reset hr ht => exact .inl hr
  | completion i rest hc he => exact absurd (exec_sameRest he).1 hne
  | hostWrite off v u hw hu ht =>
    obtain ⟨-, harg, -, -, -⟩ := ht
    cases hu with
    | arg hoff hb => exact .inr ⟨v, hoff ▸ hw, hb, harg⟩
    | _ => exact absurd harg hne
  | quiet ht => exact absurd ht.2.1 hne

theorem step_reg_ne (h : step s = .next t) {r : Reg} (hne : t.reg r ≠ s.reg r) :
    s.Resets ∨ (∃ i, s.Completes i ∧ r ∈ destsOf i) ∨
      ∃ k v, k < s.cfg.numWords ∧ s.HostWrites (opwOffset r k) v ∧ s.status.busy = false ∧
        t.reg r = (s.reg r).set k v := by
  cases stepEffect h with
  | reset hr ht => exact .inl hr
  | completion i rest hc he =>
    refine .inr (.inl ⟨i, hc, ?_⟩)
    by_contra hr
    exact hne (exec_reg_of_not_dest he hr)
  | hostWrite off v u hw hu ht =>
    have hreg : t.reg r = u.reg r := State.reg_congr ht.1 r
    rw [hreg] at hne ⊢
    cases hu with
    | word r' k hk hoff hb =>
      rw [State.setWord, State.reg_setReg] at hne ⊢
      by_cases hr : r = r'
      · subst hr
        exact .inr (.inr ⟨k, v, hk, hoff ▸ hw, hb, if_pos rfl⟩)
      · exact absurd (if_neg hr) hne
    | _ => exact absurd rfl hne
  | quiet ht => exact absurd (State.reg_congr ht.1 r) hne

end Registers

/-- Settles O58, by what a step can make of the block. -/
theorem registersChangeOnlyThere : Obligations.RegistersChangeOnlyThere :=
  fun _ _ h => ⟨step_arg_ne h, fun _ hne => step_reg_ne h hne⟩

/-- Settles O1: reset fills every register with zero words. -/
theorem resetLeavesAllZero : Obligations.ResetLeavesAllZero := by
  refine ⟨fun cfg => ⟨fun r => ⟨?_, ?_, fun i => ?_⟩, rfl, rfl, rfl⟩, fun s => rfl⟩
  · simp [State.val]
  · simp
  · rw [State.reg_resetOf, wordAt, List.getD_eq_getElem?_getD, List.getElem?_replicate]
    split <;> rfl

/-! ### ID and STATUS as words (10_state.md R24, R29) -/

section IdWord
variable (cfg : Config)

theorem idWord_nwords : ((idWord cfg).extractLsb' 0 16).toNat = cfg.numWords := by
  have hN := (numWords_bounds cfg).2
  have hlow : (idWord cfg).extractLsb' 0 16 = BitVec.ofNat 16 cfg.numWords :=
    BitVec.extractLsb'_append_eq_right
  rw [hlow, BitVec.toNat_ofNat]
  omega

theorem idWord_nreg : (idWord cfg).extractLsb' 16 8 = 8 :=
  (BitVec.extractLsb'_append_eq_of_le (Nat.le_refl 16)).trans BitVec.extractLsb'_append_eq_right

theorem idWord_rev : (idWord cfg).extractLsb' 24 8 = 0x01 :=
  calc (idWord cfg).extractLsb' 24 8
    _ = (0x4D504131#32 ++ 0x01#8 ++ 8#8).extractLsb' 8 8 :=
      BitVec.extractLsb'_append_eq_of_le (by decide)
    _ = (0x4D504131#32 ++ 0x01#8).extractLsb' 0 8 := BitVec.extractLsb'_append_eq_of_le (by decide)
    _ = 0x01 := BitVec.extractLsb'_append_eq_right

theorem idWord_magic : (idWord cfg).extractLsb' 32 32 = 0x4D504131 :=
  calc (idWord cfg).extractLsb' 32 32
    _ = (0x4D504131#32 ++ 0x01#8 ++ 8#8).extractLsb' 16 32 :=
      BitVec.extractLsb'_append_eq_of_le (by decide)
    _ = (0x4D504131#32 ++ 0x01#8).extractLsb' 8 32 := BitVec.extractLsb'_append_eq_of_le (by decide)
    _ = 0x4D504131 := BitVec.extractLsb'_append_eq_left

end IdWord

/-- Settles O49: the fields of the ID word, and that no step changes the configuration. -/
theorem idIsConstant : Obligations.IdIsConstant := by
  refine ⟨fun s => ⟨?_, idWord_nwords s.cfg, (numWords_bounds s.cfg).1, (numWords_bounds s.cfg).2,
    idWord_nreg s.cfg, idWord_rev s.cfg, idWord_magic s.cfg, fun v => ?_⟩, fun s t h => ?_⟩
  · exact s.access_memRead 0x00 (by decide) (by decide)
  · exact s.access_memWrite 0x00 v (by decide) (by decide)
  · have hcfg := step_cfg h
    exact ⟨hcfg, congrArg idWord hcfg⟩

section StatusWord
variable (st : Status)

/-- The one-bit fields of the word read (10_state.md R24). -/
theorem toWord_bits :
    st.toWord.getLsbD 0 = st.busy ∧ st.toWord.getLsbD 1 = st.z ∧ st.toWord.getLsbD 2 = st.odd ∧
      st.toWord.getLsbD 3 = st.lt ∧ st.toWord.getLsbD 4 = st.gt ∧
      st.toWord.getLsbD 12 = st.ovr := by
  simp only [Status.toWord, BitVec.getLsbD_append, Nat.reduceLT, Nat.reduceSub, if_true, if_false,
    BitVec.getLsbD_ofBool, decide_true, Bool.true_and, and_self]

/-- A field of the word read is x where its bits are those of x. -/
theorem extract_toWord {start len : Nat} {x : BitVec len}
    (h : ∀ i < len, st.toWord.getLsbD (start + i) = x.getLsbD i) :
    st.toWord.extractLsb' start len = x := by
  refine BitVec.eq_of_getLsbD_eq fun i hi => ?_
  rw [BitVec.getLsbD_extractLsb', h i hi]
  simp [hi]

theorem toWord_err : st.toWord.extractLsb' 8 4 = st.err := by
  refine extract_toWord st fun i hi => ?_
  simp (disch := omega) only [Status.toWord, BitVec.getLsbD_append, if_neg, if_pos]
  congr 1
  omega

theorem toWord_reserved_low : st.toWord.extractLsb' 5 3 = 0 := by
  refine extract_toWord st (x := 0#3) fun i hi => ?_
  simp (disch := omega) only [Status.toWord, BitVec.getLsbD_append, if_neg, if_pos,
    BitVec.getLsbD_zero]

theorem toWord_reserved_high : st.toWord.extractLsb' 13 51 = 0 := by
  refine extract_toWord st (x := 0#51) fun i _ => ?_
  simp (disch := omega) only [Status.toWord, BitVec.getLsbD_append, if_neg, BitVec.getLsbD_zero]

end StatusWord

theorem toWord_reset : Status.reset.toWord = 0 := by decide

/-- Settles O48: the word's fields, and R24's write, which clears OVR alone. -/
theorem statusWordAndWrite : Obligations.StatusWordAndWrite := by
  intro s
  obtain ⟨hbusy, hz, hodd, hlt, hgt, hovr⟩ := toWord_bits s.status
  have hwrite : ∀ v, s.WriteGives 0x08 v { s with status := s.status.hostWrite v } := fun v =>
    s.access_memWrite 0x08 v (by decide) (by decide)
  refine ⟨s.access_memRead 0x08 (by decide) (by decide), hbusy, hz, hodd, hlt, hgt,
    toWord_reserved_low _, toWord_err _, hovr, toWord_reserved_high _, toWord_reset,
    fun v => ⟨fun hv => ?_, fun hv => ?_⟩⟩
  · rw [← Status.hostWrite_of_set s.status hv]; exact hwrite v
  · have hsame := hwrite v
    rwa [Status.hostWrite_of_clear s.status hv] at hsame

end Sys2Proof.Machine

/-! ## The register window (20_memory.md)

PROOFS. What each offset of the window is, what a host access answers and what it can make of the
block, each said once; the statements of 20_memory.md follow. -/

namespace Sys2Proof.Machine

/-! ### What each offset reads as, and what a write to it gives (R52, R53, R58) -/

section ReservedOffsets
variable {cfg : Config} {off : Nat}

theorem reservedOffset_bounds (h : reservedOffset cfg off) : off < 0x20000 ∧ off % 8 = 0 := by
  unfold reservedOffset at h
  omega

theorem targetOf_reservedOffset (h : reservedOffset cfg off) : targetOf cfg off = .reserved := by
  obtain ⟨h8, hrange⟩ := h
  rcases targetOf_cases cfg h8 with (rfl | hres) | rfl | rfl | rfl | ⟨r, k, hk, rfl⟩
  · omega
  · exact hres
  · omega
  · omega
  · omega
  · have hr := r.isLt
    have hN := (numWords_bounds cfg).2
    unfold opwOffset at hrange
    omega

/-- The words of a register's window that no operand has are reserved (R52). -/
theorem reservedOffset_opwOffset (r : Reg) {i : Nat} (hi : cfg.numWords ≤ i) (hlt : i < 512) :
    reservedOffset cfg (opwOffset r i) := by
  have hr := r.isLt
  have hword : opwOffset r i % 0x1000 / 8 = i := by unfold opwOffset; omega
  unfold reservedOffset
  rw [hword]
  unfold opwOffset
  omega

theorem targetOf_ne_status (h : off ≠ 0x08) : targetOf cfg off ≠ .status := by
  unfold targetOf
  split_ifs <;> simp

end ReservedOffsets

section Window
variable (s : State)

theorem State.readsAs_opwOffset (r : Reg) {i : Nat} (hi : i < s.cfg.numWords) :
    s.ReadsAs (opwOffset r i) (wordAt (s.reg r) i) := by
  obtain ⟨hoff, h8⟩ := opwOffset_bounds s.cfg (r := r) hi
  have hread := s.access_memRead (opwOffset r i) hoff h8
  rwa [targetOf_opwOffset s.cfg hi] at hread

theorem State.readsAs_reserved {off : Nat} (h : reservedOffset s.cfg off) : s.ReadsAs off 0 := by
  obtain ⟨hoff, h8⟩ := reservedOffset_bounds h
  have hread := s.access_memRead off hoff h8
  rwa [targetOf_reservedOffset h] at hread

variable (v : Word)

theorem State.writeGives_poke {off : Nat} {t : State} (hoff : off < 0x20000) (h8 : off % 8 = 0)
    (ht : s.poke v (targetOf s.cfg off) = t) : s.WriteGives off v t :=
  ht ▸ s.access_memWrite off v hoff h8

theorem State.writeGives_id : s.WriteGives 0x00 v s :=
  s.writeGives_poke v (by decide) (by decide) rfl

theorem State.writeGives_status :
    s.WriteGives 0x08 v { s with status := s.status.hostWrite v } :=
  s.writeGives_poke v (by decide) (by decide) rfl

theorem State.writeGives_reserved {off : Nat} (h : reservedOffset s.cfg off) :
    s.WriteGives off v s := by
  obtain ⟨hoff, h8⟩ := reservedOffset_bounds h
  exact s.writeGives_poke v hoff h8 (by rw [targetOf_reservedOffset h, State.poke])

theorem State.writeGives_opwOffset_idle (r : Reg) {i : Nat} (hi : i < s.cfg.numWords)
    (hb : s.status.busy = false) : s.WriteGives (opwOffset r i) v (s.setWord r i v) := by
  obtain ⟨hoff, h8⟩ := opwOffset_bounds s.cfg (r := r) hi
  exact s.writeGives_poke v hoff h8
    (by rw [targetOf_opwOffset s.cfg hi, s.poke_opw_idle v r i hb])

/-- The busy block drops a write to CMD, ARG or an operand word, and sets OVR (R59). -/
theorem State.writeGives_dropped {off : Nat} (h : Droppable s.cfg off)
    (hb : s.status.busy = true) : s.WriteGives off v s.setOvr := by
  obtain ⟨hoff, h8⟩ := offset_bounds_of_droppable h
  exact s.writeGives_poke v hoff h8 (s.poke_dropped v h hb)

end Window

/-- Settles O40, one lemma for each kind of offset. -/
theorem registerWindowMap : Obligations.RegisterWindowMap := by
  intro s
  have hread : ∀ off, off < 0x20000 → off % 8 = 0 →
      s.ReadsAs off (s.peek (targetOf s.cfg off)) := s.access_memRead
  refine ⟨⟨hread 0x00 (by decide) (by decide), s.writeGives_id⟩,
    ⟨hread 0x08 (by decide) (by decide), s.writeGives_status⟩,
    ⟨hread 0x10 (by decide) (by decide), fun v => ?_⟩,
    ⟨hread 0x18 (by decide) (by decide), fun hb v => ?_⟩,
    fun r i hi => ⟨s.readsAs_opwOffset r hi, fun hb v => ?_⟩,
    fun off h => ⟨s.readsAs_reserved h, fun v => s.writeGives_reserved v h⟩,
    fun r i => reservedOffset_opwOffset r⟩
  · exact s.writeGives_poke v (by decide) (by decide) rfl
  · exact s.writeGives_poke v (by decide) (by decide) (s.poke_arg_idle v hb)
  · exact s.writeGives_opwOffset_idle v r hi hb

/-! ### What a host access can make of the busy block (R59, R60) -/

section Access
variable {s : State}

/-- Any host access makes of the block what some write makes of it: a read, an unsupported access and
one outside the region what an ignored write does. -/
theorem State.access_writeEffect (s : State) (a : Access) :
    ∃ off v u, s.WriteEffect off v u ∧ u.SameArch (s.access a) := by
  rcases s.access_cases a with ⟨rep, he⟩ | ⟨v, hd, hs, hp, he⟩
  · exact ⟨0, 0, s, .ignored, by rw [he]; exact ⟨rfl, rfl, rfl, rfl, rfl⟩⟩
  · obtain ⟨off, hoff, h8, rfl⟩ := eq_memWrite_of_supported hd hs hp
    refine ⟨off, v, _, s.writeEffect_poke v h8, ?_⟩
    rw [s.access_memWrite off v hoff h8]
    exact ⟨rfl, rfl, rfl, rfl, rfl⟩

/-- While BUSY = 1 a write changes nothing but OVR (R59). -/
theorem State.WriteEffect.eq_of_busy {off : Nat} {v : Word} {u : State}
    (hu : s.WriteEffect off v u) (hb : s.status.busy = true) :
    ∃ o, u = { s with status := { s.status with ovr := o } } := by
  cases hu with
  | ignored => exact ⟨s.status.ovr, rfl⟩
  | status => exact ⟨_, rfl⟩
  | dropped => exact ⟨true, rfl⟩
  | rejected _ _ hidle => simp [hb] at hidle
  | accepted _ _ hidle => simp [hb] at hidle
  | arg _ hidle => simp [hb] at hidle
  | word _ _ _ _ hidle => simp [hb] at hidle

/-- While BUSY = 1 no host access, of any kind, changes anything but OVR (R59, R60). -/
theorem State.access_of_busy (a : Access) (hb : s.status.busy = true) :
    ∃ o, ({ s with status := { s.status with ovr := o } } : State).SameArch (s.access a) := by
  obtain ⟨off, v, u, hu, hsame⟩ := s.access_writeEffect a
  obtain ⟨o, rfl⟩ := hu.eq_of_busy hb
  exact ⟨o, hsame⟩

end Access

/-- Settles O41: the dropped writes, the writes that act as ever, and the frame of any access. -/
theorem busyDropsWrites : Obligations.BusyDropsWrites := by
  intro s hb v
  refine ⟨⟨s.writeGives_dropped v (.inl rfl) hb, s.writeGives_dropped v (.inr (.inl rfl)) hb,
    fun r i hi => s.writeGives_dropped v (.inr (.inr ⟨r, i, hi, rfl⟩)) hb⟩, s.writeGives_id v,
    s.writeGives_status v, fun off h => s.writeGives_reserved v h, fun a => ?_⟩
  obtain ⟨o, hx, harg, -⟩ := State.access_of_busy a hb
  exact ⟨hx, harg⟩

/-! ### What an accepted command leaves (R60) -/

/-- BUSY is bit 0 of STATUS (10_state.md R24). -/
theorem toWord_set_busy (st : Status) :
    ({ st with busy := true } : Status).toWord = st.toWord ||| 1 := by
  have hone : (1 : Word) = 0#63 ++ 1#1 := by decide
  have hbit : BitVec.ofBool st.busy ||| 1#1 = BitVec.ofBool true := by
    cases st.busy <;> rfl
  rw [Status.toWord, Status.toWord, hone]
  exact ((BitVec.or_append).trans (by rw [hbit, BitVec.or_zero])).symm

/-- What PEND and BUSY hold shows at STATUS alone. -/
theorem State.peek_latch (s : State) (c : Instr) {tg : Target} (h : tg ≠ .status) :
    (s.latch c).peek tg = s.peek tg := by
  cases tg with
  | status => exact absurd rfl h
  | _ => rfl

theorem State.readsAs_iff (s : State) {off : Nat} {w : Word} (hoff : off < 0x20000)
    (h8 : off % 8 = 0) : s.ReadsAs off w ↔ s.peek (targetOf s.cfg off) = w := by
  simp [State.ReadsAs, s.access_memRead off hoff h8]

/-- Settles O42: what an accepted command shows, and the frame of any access while it is pending. -/
theorem pendingCommandIsUndisturbed : Obligations.PendingCommandIsUndisturbed := by
  refine ⟨fun s c off _ hoff h8 => ⟨fun hne w hw => ?_, ?_⟩, fun s a hb => ?_⟩
  · rw [s.readsAs_iff hoff h8] at hw
    rw [(s.latch c).readsAs_iff hoff h8, ← hw]
    exact s.peek_latch c (targetOf_ne_status hne)
  · exact ((s.latch c).readsAs_iff (by decide) (by decide)).mpr (toWord_set_busy s.status)
  · obtain ⟨o, hx, harg, hst, hp, -⟩ := State.access_of_busy a hb
    rw [State.SameFlags, hst]
    exact ⟨hx, harg, hp, hb, rfl, rfl, rfl, rfl, rfl⟩

/-! ### Writing one word of an operand (R53) -/

section SetWord
variable {ws : Words} {i : Nat} (v : Word)

theorem wordAt_set_same (hi : i < ws.length) : wordAt (ws.set i v) i = v := by
  simp [wordAt, hi]

theorem wordAt_set_ne {j : Nat} (hj : j ≠ i) : wordAt (ws.set i v) j = wordAt ws j := by
  simp [wordAt, List.getElem?_set_ne hj.symm]

/-- A word that is written leaves the value by its place and v enters there. -/
theorem valueOf_set_add (hi : i < ws.length) :
    valueOf (ws.set i v) + (wordAt ws i).toNat * 2 ^ (64 * i) =
      valueOf ws + v.toNat * 2 ^ (64 * i) := by
  induction ws generalizing i with
  | nil => simp at hi
  | cons w ws ih =>
    cases i with
    | zero => simp [valueOf, wordAt]; omega
    | succ i =>
      have hrest := ih (Nat.lt_of_succ_lt_succ hi)
      have hpow : (2 : Nat) ^ (64 * (i + 1)) = 2 ^ 64 * 2 ^ (64 * i) := by
        rw [← pow_add]; congr 1; ring
      simp only [wordAt, List.getD_cons_succ] at hrest ⊢
      rw [List.set_cons_succ, valueOf, valueOf, hpow]
      linear_combination 2 ^ 64 * hrest

theorem valueOf_set (hi : i < ws.length) :
    valueOf (ws.set i v) =
      valueOf ws - (wordAt ws i).toNat * 2 ^ (64 * i) + v.toNat * 2 ^ (64 * i) := by
  have hzero : valueOf (ws.set i 0) + (wordAt ws i).toNat * 2 ^ (64 * i) = valueOf ws := by
    simpa using valueOf_set_add 0 hi
  have hv := valueOf_set_add v hi
  omega

theorem State.regsWf_setWord {s : State} (r : Reg) (h : s.RegsWf) : (s.setWord r i v).RegsWf := by
  intro r'
  rw [State.setWord, State.reg_setReg]
  split
  · exact List.length_set.trans (h r)
  · exact h r'

end SetWord

/-- Settles O46: the write makes the state with that word set, and the rest is the word's own laws. -/
theorem operandWordWriteReadsBack : Obligations.OperandWordWriteReadsBack := by
  refine ⟨fun s r i hi => s.readsAs_opwOffset r hi, fun s r i v hw hb hi => ?_⟩
  have hlen : i < (s.reg r).length := by rwa [hw r]
  have hreg : (s.setWord r i v).reg r = (s.reg r).set i v := s.reg_setReg_same r _
  rw [s.writeGives_opwOffset_idle v r hi hb]
  refine ⟨_, rfl, State.regsWf_setWord v r hw, ?_, ?_, fun j hj => ?_, fun r' hr => ?_, rfl, rfl,
    rfl, rfl⟩
  · exact (congrArg valueOf hreg).trans (valueOf_set v hlen)
  · have hword : wordAt ((s.setWord r i v).reg r) i = v := by rw [hreg, wordAt_set_same v hlen]
    exact (congrArg (State.ReadsAs _ _) hword).mp (State.readsAs_opwOffset _ r hi)
  · exact (congrArg (wordAt · j) hreg).trans (wordAt_set_ne v hj)
  · exact s.reg_setReg_ne r r' _ hr

/-! ### The byte image of a register (R54, R55) -/

theorem laneByte_toNat (v : Word) (k : Nat) :
    (laneByte v k).toNat = v.toNat / 2 ^ (8 * k) % 2 ^ 8 := by
  rw [laneByte, BitVec.extractLsb'_toNat, Nat.shiftRight_eq_div_pow]

/-- Bits a + b - 1 : a of x are those of its low m bits. -/
theorem mod_two_pow_div_mod (x : Nat) {m a b : Nat} (h : a + b ≤ m) :
    x % 2 ^ m / 2 ^ a % 2 ^ b = x / 2 ^ a % 2 ^ b := by
  obtain ⟨c, rfl⟩ := Nat.exists_eq_add_of_le h
  rw [add_assoc, pow_add, Nat.mod_mul_right_div_self,
    Nat.mod_mod_of_dvd _ (Nat.pow_dvd_pow 2 (Nat.le_add_right b c))]

/-- Byte k of word i is byte 8i + k of the value (R54, R55). -/
theorem laneByte_wordAt_toNat (ws : Words) (i : Nat) {k : Nat} (hk : k < 8) :
    (laneByte (wordAt ws i) k).toNat = valueOf ws / 2 ^ (8 * (8 * i + k)) % 2 ^ 8 :=
  calc (laneByte (wordAt ws i) k).toNat
    _ = valueOf ws / 2 ^ (64 * i) % 2 ^ 64 / 2 ^ (8 * k) % 2 ^ 8 := by
      rw [laneByte_toNat, wordAt_toNat]
    _ = valueOf ws / 2 ^ (64 * i) / 2 ^ (8 * k) % 2 ^ 8 := mod_two_pow_div_mod _ (by omega)
    _ = valueOf ws / 2 ^ (8 * (8 * i + k)) % 2 ^ 8 := by
      rw [Nat.div_div_eq_div_mul, ← pow_add]; congr 3; ring

/-- Settles O47, with the word of the register as the word read. -/
theorem registerWindowIsLittleEndian : Obligations.RegisterWindowIsLittleEndian :=
  fun s r i k hi hk => ⟨wordAt (s.reg r) i, s.readsAs_opwOffset r hi, laneByte_toNat _ k,
    wordAt_toNat (s.reg r) i, laneByte_wordAt_toNat (s.reg r) i hk⟩

/-! ### The decoded command as a step (30_encoding.md R92, R94) -/

theorem step_core {s : State} {i : Instr} {rest : List Event} (hb : s.status.busy = true)
    (hp : s.pend = some i) (hin : s.inbox = .core :: rest) :
    step s = exec i { s with inbox := rest } := by
  rw [step_cons s hin, handleEvent, coreTurn_pending { s with inbox := rest } hb hp]

theorem State.offer_accept {s : State} {v : Word} {i : Instr} (hb : s.status.busy = false)
    (hd : decode v = .accept i) : s.offer v = s.latch i := by
  simp [State.offer, hb, hd]

theorem State.withFetchWord_accept (s : State) {v : Word} {i : Instr}
    (hd : decode v = .accept i) :
    s.withFetchWord 64 v.toNat = { s.latch i with inbox := .core :: s.inbox } := by
  have hv : BitVec.ofNat 64 (v.toNat % 2 ^ 64) = v := by
    rw [Nat.mod_eq_of_lt v.isLt, BitVec.ofNat_toNat, BitVec.setWidth_eq]
  rw [State.withFetchWord, hv, State.presentWord, hd]

/-- Settles O38: the acceptance, and the core's turn wherever it comes from. -/
theorem stepRunsTheDecodedCommand : Obligations.StepRunsTheDecodedCommand := by
  refine ⟨fun s v i rest hb hd hin => ?_, fun s i rest hb hp => ⟨step_core hb hp, fun hin => ?_⟩,
    fun s v i hd => ?_⟩
  · refine ⟨_, ?_, rfl, step_core rfl rfl rfl⟩
    have hwrite := State.writeGives_poke { s with inbox := .core :: rest } v (off := 0x10)
      (by decide) (by decide) (State.offer_accept hb hd)
    exact (step_cons s hin).trans (congrArg Host.Outcome.next hwrite)
  · rw [step_nil s hin, coreTurn_pending s hb hp]
  · rw [s.withFetchWord_accept hd]
    exact step_core rfl rfl rfl

/-! ### Accesses that change nothing (R51, R57, R58) -/

section Quiet
variable (s : State) (a : Access)

theorem State.access_of_not_selected (h : selected s.cfg a.addr = false) :
    s.access a = { s with reply := some .notSelected } := by
  simp [State.access, h]

theorem State.access_of_unsupported_read (hs : selected s.cfg a.addr = true)
    (hp : supported s.cfg a = false) (hd : a.dir = .read) :
    s.access a = { s with reply := some (.readError 0) } := by
  simp [State.access, hs, hp, hd]

theorem State.access_of_unsupported_write {v : Word} (hs : selected s.cfg a.addr = true)
    (hp : supported s.cfg a = false) (hd : a.dir = .write v) :
    s.access a = { s with reply := some .writeError } := by
  simp [State.access, hs, hp, hd]

theorem State.access_of_supported_read (hs : selected s.cfg a.addr = true)
    (hp : supported s.cfg a = true) (hd : a.dir = .read) :
    s.access a =
      { s with reply := some (.data (s.peek (targetOf s.cfg (a.addr - s.cfg.base)))) } := by
  simp [State.access, hs, hp, hd]

/-- A read changes the reply alone, to one that the reply before has no part in (R58). -/
theorem State.access_read (hd : a.dir = .read) :
    ∃ rep, ∀ old, ({ s with reply := old } : State).access a = { s with reply := some rep } := by
  cases hs : selected s.cfg a.addr with
  | false => exact ⟨_, fun old => State.access_of_not_selected { s with reply := old } a hs⟩
  | true =>
    cases hp : supported s.cfg a with
    | false =>
      exact ⟨_, fun old => State.access_of_unsupported_read { s with reply := old } a hs hp hd⟩
    | true =>
      exact ⟨.data (s.peek (targetOf s.cfg (a.addr - s.cfg.base))), fun old =>
        State.access_of_supported_read { s with reply := old } a hs hp hd⟩

end Quiet

/-- Settles O43: the access is selected and not supported. -/
theorem unsupportedAccessChangesNothing : Obligations.UnsupportedAccessChangesNothing := by
  intro s a hlo hhi hbad
  have hs : selected s.cfg a.addr = true := by simp [selected, hlo, hhi]
  have hp : supported s.cfg a = false := by
    rw [supported, Bool.and_eq_false_iff, Bool.and_eq_false_iff]
    simpa [or_assoc] using hbad
  exact ⟨s.access_of_unsupported_read a hs hp, fun v => s.access_of_unsupported_write a hs hp⟩

/-- Settles O44: the access is not selected. -/
theorem accessOutsideTheRegionIsIgnored : Obligations.AccessOutsideTheRegionIsIgnored := by
  intro s a hout
  have hs : selected s.cfg a.addr = false := by
    simp only [selected, Bool.and_eq_false_iff, decide_eq_false_iff_not]
    omega
  rw [s.access_of_not_selected a hs]
  exact ⟨⟨rfl, rfl, rfl, rfl, rfl⟩, rfl⟩

/-- Settles O45: a read changes the reply alone, and reads the same whatever the reply was. -/
theorem readsHaveNoSideEffects : Obligations.ReadsHaveNoSideEffects := by
  intro s a hd
  obtain ⟨rep, hread⟩ := s.access_read a hd
  have hs : s.access a = { s with reply := some rep } := hread s.reply
  rw [hs]
  exact ⟨⟨rfl, rfl, rfl, rfl, rfl⟩, hread (some rep)⟩

end Sys2Proof.Machine

/-! ## The command word and its commands (30_encoding.md)

PROOFS. The bits of a word's fields, what Decode answers and when, what a CMD write and the completion
of a command make of the block, and the runs of host sequences; the statements of 30_encoding.md
follow. -/

namespace Sys2Proof.Machine

/-! ### The format of a command word (R81, R96) -/

theorem toNat_append_eq_add {m n : Nat} (x : BitVec m) (y : BitVec n) :
    (x ++ y).toNat = x.toNat * 2 ^ n + y.toNat := by
  rw [BitVec.toNat_append, ← Nat.shiftLeft_add_eq_or_of_lt y.isLt, Nat.shiftLeft_eq]

theorem wordOfFields_toNat (opc : BitVec 8) (rd rs1 rs2 rd2 : BitVec 4) :
    (wordOfFields opc rd rs1 rs2 rd2).toNat =
      opc.toNat + rd.toNat * 2 ^ 8 + rs1.toNat * 2 ^ 12 + rs2.toNat * 2 ^ 16 +
        rd2.toNat * 2 ^ 20 := by
  simp only [wordOfFields, toNat_append_eq_add, BitVec.toNat_zero]
  ring

/-- Settles O8: a concatenation is a sum with weights, and each field a quotient and a remainder. -/
theorem wordOfFieldsHasTheFormat : Obligations.WordOfFieldsHasTheFormat := by
  intro opc rd rs1 rs2 rd2
  have hfield (v : Word) (start len : Nat) :
      (v.extractLsb' start len).toNat = v.toNat / 2 ^ start % 2 ^ len := by
    rw [BitVec.extractLsb'_toNat, Nat.shiftRight_eq_div_pow]
  refine ⟨wordOfFields_toNat opc rd rs1 rs2 rd2, fun v => ⟨?_, hfield v 8 4, hfield v 12 4,
    hfield v 16 4, hfield v 20 4, ?_⟩⟩
  · exact (hfield v 0 8).trans (by rw [Nat.pow_zero, Nat.div_one])
  · have htop : v.toNat / 2 ^ 24 < 2 ^ 40 := by omega
    exact (hfield v 24 40).trans (Nat.mod_eq_of_lt htop)

/-! ### The opcode map (R84) -/

/-- A row is found by its own opcode: no two rows share one. -/
theorem find?_opMap_of_mem {row : OpRow} {opc : BitVec 8} (h : row ∈ opMap)
    (hopc : row.opc = opc) : opMap.find? (fun r => r.opc == opc) = some row := by
  have hall : ∀ row ∈ opMap, opMap.find? (fun r => r.opc == row.opc) = some row := by
    simp [opMap]
  exact hopc ▸ hall row h

theorem mem_definedOpcodes_iff (opc : BitVec 8) :
    opc ∈ definedOpcodes ↔ ∃ row ∈ opMap, row.opc = opc := by
  have hmap : definedOpcodes = opMap.map OpRow.opc := rfl
  rw [hmap, List.mem_map]

/-- A row's command has the row's mnemonic. -/
theorem mnemonicOf_build : ∀ row ∈ opMap, ∀ rd rs1 rs2 rd2 : Reg,
    mnemonicOf (row.build rd rs1 rs2 rd2) = row.mnemonic := by
  simp [opMap, mnemonicOf]

theorem opc_eq_iff_mnemonic_eq :
    ∀ row ∈ opMap, ∀ row' ∈ opMap, row.opc = row'.opc ↔ row.mnemonic = row'.mnemonic := by
  decide

theorem opc_divrem_iff : ∀ row ∈ opMap, row.opc = 0x20 ↔ row.mnemonic = "DIVREM" := by
  decide

/-- Which fields a row uses, by the lists of opcodes. -/
theorem uses_of_mem_opMap : ∀ row ∈ opMap,
    row.usesRd = decide (row.opc ∉ noRdOpcodes) ∧ row.usesRs1 = decide (row.opc ∉ noRs1Opcodes) ∧
      row.usesRs2 = decide (row.opc ∉ noRs2Opcodes) ∧ row.usesRd2 = decide (row.opc = 0x20) := by
  decide

section Row
variable {row : OpRow} {v : Word}

theorem unusedFieldSet_iff (h : row ∈ opMap) (hopc : row.opc = opcField v) :
    unusedFieldSet row v = true ↔ UnusedFieldNonzero v := by
  obtain ⟨hrd, hrs1, hrs2, hrd2⟩ := uses_of_mem_opMap row h
  simp only [unusedFieldSet, hrd, hrs1, hrs2, hrd2, hopc, Bool.or_eq_true, Bool.and_eq_true,
    Bool.not_eq_true', decide_eq_false_iff_not, not_not, bne_iff_ne, or_assoc]

/-- Where the unused fields are 0, a field of 8 or more is one the opcode uses (R88). -/
theorem usedFieldTooLarge_iff (hun : unusedFieldSet row v = false) :
    usedFieldTooLarge row v = true ↔ FieldTooLarge v := by
  have hused (used : Bool) (f : BitVec 4) (hf : (!used && f != 0) = false) :
      (used && decide (8 ≤ f.toNat)) = decide (8 ≤ f.toNat) := by
    revert used f; decide
  simp only [unusedFieldSet, Bool.or_eq_false_iff] at hun
  obtain ⟨⟨⟨hrd, hrs1⟩, hrs2⟩, hrd2⟩ := hun
  simp only [usedFieldTooLarge, hused _ _ hrd, hused _ _ hrs1, hused _ _ hrs2, hused _ _ hrd2,
    Bool.or_eq_true, decide_eq_true_eq, or_assoc]

end Row

/-! ### Decode (R85 to R90) -/

/-- What Decode answers for the word v: each answer with its own check failed and all earlier ones
passed, in the words of R85 to R89. -/
inductive DecodeAnswer (v : Word) : Decoded → Prop
  | illop (hopc : opcField v ∉ definedOpcodes) : DecodeAnswer v (.reject .illop)
  | illfmt (hopc : opcField v ∈ definedOpcodes)
      (hfmt : reservedField v ≠ 0 ∨ UnusedFieldNonzero v) : DecodeAnswer v (.reject .illfmt)
  | illreg (hopc : opcField v ∈ definedOpcodes) (hres : reservedField v = 0)
      (hun : ¬UnusedFieldNonzero v) (hreg : FieldTooLarge v) : DecodeAnswer v (.reject .illreg)
  | aliased (hopc : opcField v = 0x20) (hres : reservedField v = 0) (hun : ¬UnusedFieldNonzero v)
      (hreg : ¬FieldTooLarge v) (heq : rdField v = rd2Field v) : DecodeAnswer v (.reject .aliased)
  | accept (row : OpRow) (hrow : row ∈ opMap) (hopc : row.opc = opcField v)
      (hres : reservedField v = 0) (hun : ¬UnusedFieldNonzero v) (hreg : ¬FieldTooLarge v)
      (hne : opcField v = 0x20 → rdField v ≠ rd2Field v) :
      DecodeAnswer v (.accept (row.build (regOfField (rdField v)) (regOfField (rs1Field v))
        (regOfField (rs2Field v)) (regOfField (rd2Field v))))

theorem decode_of_not_mem {v : Word} (h : opcField v ∉ definedOpcodes) :
    decode v = .reject .illop := by
  have hnone : opMap.find? (fun row => row.opc == opcField v) = none := by
    refine List.find?_eq_none.mpr fun row hrow ho => h ?_
    exact (mem_definedOpcodes_iff _).mpr ⟨row, hrow, eq_of_beq ho⟩
  rw [decode, hnone]

/-- Decode of a word with a row's opcode, its checks in the words of R87 to R89. -/
theorem decode_of_mem_opMap {row : OpRow} {v : Word} (hrow : row ∈ opMap)
    (hopc : row.opc = opcField v) :
    decode v =
      if reservedField v ≠ 0 ∨ UnusedFieldNonzero v then .reject .illfmt
      else if FieldTooLarge v then .reject .illreg
      else if opcField v = 0x20 ∧ rdField v = rd2Field v then .reject .aliased
      else .accept (row.build (regOfField (rdField v)) (regOfField (rs1Field v))
        (regOfField (rs2Field v)) (regOfField (rd2Field v))) := by
  rw [decode, find?_opMap_of_mem hrow hopc]
  dsimp only
  by_cases hres : reservedField v ≠ 0
  · rw [if_pos hres, if_pos (.inl hres)]
  cases hun : unusedFieldSet row v with
  | true =>
    have hfmt : UnusedFieldNonzero v := (unusedFieldSet_iff hrow hopc).mp hun
    rw [if_neg hres, if_pos rfl, if_pos (.inr hfmt)]
  | false =>
    have hfmt : ¬UnusedFieldNonzero v := by
      rw [← unusedFieldSet_iff hrow hopc, hun]; exact Bool.false_ne_true
    rw [if_neg hres, if_neg Bool.false_ne_true, if_neg (not_or.mpr ⟨hres, hfmt⟩)]
    simp only [usedFieldTooLarge_iff hun, hopc]

theorem decodeAnswer (v : Word) : DecodeAnswer v (decode v) := by
  by_cases hopc : opcField v ∈ definedOpcodes
  · obtain ⟨row, hrow, ho⟩ := (mem_definedOpcodes_iff _).mp hopc
    rw [decode_of_mem_opMap hrow ho]
    split_ifs with hfmt hreg halias
    · exact .illfmt hopc hfmt
    all_goals obtain ⟨hres, hun⟩ := not_or.mp hfmt
    · exact .illreg hopc (not_not.mp hres) hun hreg
    · exact .aliased halias.1 (not_not.mp hres) hun hreg halias.2
    · exact .accept row hrow ho (not_not.mp hres) hun hreg fun h heq => halias ⟨h, heq⟩
  · rw [decode_of_not_mem hopc]
    exact .illop hopc

/-- The conditions of the answers exclude one another. -/
theorem DecodeAnswer.decode_eq {v : Word} {d : Decoded} (h : DecodeAnswer v d) : decode v = d := by
  cases h with
  | illop hopc => exact decode_of_not_mem hopc
  | illfmt hopc hfmt =>
    obtain ⟨row, hrow, ho⟩ := (mem_definedOpcodes_iff _).mp hopc
    rw [decode_of_mem_opMap hrow ho, if_pos hfmt]
  | illreg hopc hres hun hreg =>
    obtain ⟨row, hrow, ho⟩ := (mem_definedOpcodes_iff _).mp hopc
    rw [decode_of_mem_opMap hrow ho, if_neg (not_or.mpr ⟨not_not.mpr hres, hun⟩), if_pos hreg]
  | aliased hopc hres hun hreg heq =>
    have hmem : opcField v ∈ definedOpcodes := by rw [hopc]; decide
    obtain ⟨row, hrow, ho⟩ := (mem_definedOpcodes_iff _).mp hmem
    rw [decode_of_mem_opMap hrow ho, if_neg (not_or.mpr ⟨not_not.mpr hres, hun⟩), if_neg hreg,
      if_pos ⟨hopc, heq⟩]
  | accept row hrow hopc hres hun hreg hne =>
    rw [decode_of_mem_opMap hrow hopc, if_neg (not_or.mpr ⟨not_not.mpr hres, hun⟩), if_neg hreg,
      if_neg fun h => hne h.1 h.2]

theorem decode_eq_iff {v : Word} {d : Decoded} : decode v = d ↔ DecodeAnswer v d :=
  ⟨fun h => h ▸ decodeAnswer v, DecodeAnswer.decode_eq⟩

/-- DIVREM uses every field (R84). -/
theorem not_unusedFieldNonzero_of_divrem {v : Word} (h : opcField v = 0x20) :
    ¬UnusedFieldNonzero v := by
  have hlists : (0x20 : BitVec 8) ∉ noRdOpcodes ∧ (0x20 : BitVec 8) ∉ noRs1Opcodes ∧
      (0x20 : BitVec 8) ∉ noRs2Opcodes := by decide
  obtain ⟨hrd, hrs1, hrs2⟩ := hlists
  rw [UnusedFieldNonzero, h]
  rintro (⟨hm, -⟩ | ⟨hm, -⟩ | ⟨hm, -⟩ | ⟨hm, -⟩)
  · exact hrd hm
  · exact hrs1 hm
  · exact hrs2 hm
  · exact hm rfl

/-- Settles O6: each answer is Decode's exactly under its own conditions. -/
theorem decodeChecksInOrder : Obligations.DecodeChecksInOrder := by
  intro v
  simp only [decode_eq_iff]
  refine ⟨⟨fun h => ?_, .illop⟩, ⟨fun h => ?_, fun ⟨hopc, hfmt⟩ => .illfmt hopc hfmt⟩,
    ⟨fun h => ?_, fun ⟨hopc, hres, hun, hreg⟩ => .illreg hopc hres hun hreg⟩,
    ⟨fun h => ?_, fun ⟨hres, hreg, hopc, heq⟩ =>
      .aliased hopc hres (not_unusedFieldNonzero_of_divrem hopc) hreg heq⟩, rfl, rfl, rfl, rfl⟩
  · cases h with
    | illop hopc => exact hopc
  · cases h with
    | illfmt hopc hfmt => exact ⟨hopc, hfmt⟩
  · cases h with
    | illreg hopc hres hun hreg => exact ⟨hopc, hres, hun, hreg⟩
  · cases h with
    | aliased hopc hres hun hreg heq => exact ⟨hres, hreg, hopc, heq⟩

/-! ### The rows of the opcode table (R85) -/

/-- The bits of a register field that the table masks: bit 3 of a used one, all of an unused one. -/
def fieldMask (used : Bool) : BitVec 4 := if used then 8 else 15

/-- t is the opcode table's row of the opcode map's row: its mask has OPC and the reserved bits whole and
the masks of the register fields, its match word is the opcode alone. -/
abbrev IsRowOf (t : TableRow) (row : OpRow) : Prop :=
  row.mnemonic = t.mnemonic ∧ t.pattern = wordOfFields row.opc 0 0 0 0 ∧
    opcField t.mask = BitVec.allOnes 8 ∧ rdField t.mask = fieldMask row.usesRd ∧
    rs1Field t.mask = fieldMask row.usesRs1 ∧ rs2Field t.mask = fieldMask row.usesRs2 ∧
    rd2Field t.mask = fieldMask row.usesRd2 ∧ reservedField t.mask = BitVec.allOnes 40

theorem exists_isRowOf : ∀ t ∈ tableRows, ∃ row ∈ opMap, IsRowOf t row := by
  decide

/-- A field's masked bits are 0 exactly when it passes its check: 0 if unused, below 8 if used. -/
theorem and_fieldMask_eq_zero_iff (used : Bool) (f : BitVec 4) :
    f &&& fieldMask used = 0 ↔
      (!used && f != 0) = false ∧ (used && decide (8 ≤ f.toNat)) = false := by
  revert used f; decide

/-- A word is the one made from the given fields exactly where these are its fields and its reserved
bits are 0 (R81). -/
theorem eq_wordOfFields_iff (w : Word) (opc : BitVec 8) (rd rs1 rs2 rd2 : BitVec 4) :
    w = wordOfFields opc rd rs1 rs2 rd2 ↔
      opcField w = opc ∧ rdField w = rd ∧ rs1Field w = rs1 ∧ rs2Field w = rs2 ∧
        rd2Field w = rd2 ∧ reservedField w = 0 := by
  constructor
  · rintro rfl
    simp
  · rintro ⟨rfl, rfl, rfl, rfl, rfl, hres⟩
    exact (wordOfFields_fields w hres).symm

/-- The masked bits of v are the row's exactly when v has its opcode and passes ILLFMT and ILLREG. -/
theorem and_mask_eq_pattern_iff {t : TableRow} {row : OpRow} (h : IsRowOf t row)
    (hrow : row ∈ opMap) (v : Word) :
    v &&& t.mask = t.pattern ↔
      row.opc = opcField v ∧ reservedField v = 0 ∧ ¬UnusedFieldNonzero v ∧ ¬FieldTooLarge v := by
  obtain ⟨-, hpat, mopc, mrd, mrs1, mrs2, mrd2, mres⟩ := h
  have hopc : opcField (v &&& t.mask) = opcField v :=
    BitVec.extractLsb'_and.trans ((congrArg _ mopc).trans BitVec.and_allOnes)
  have hrd : rdField (v &&& t.mask) = rdField v &&& fieldMask row.usesRd :=
    mrd ▸ BitVec.extractLsb'_and
  have hrs1 : rs1Field (v &&& t.mask) = rs1Field v &&& fieldMask row.usesRs1 :=
    mrs1 ▸ BitVec.extractLsb'_and
  have hrs2 : rs2Field (v &&& t.mask) = rs2Field v &&& fieldMask row.usesRs2 :=
    mrs2 ▸ BitVec.extractLsb'_and
  have hrd2 : rd2Field (v &&& t.mask) = rd2Field v &&& fieldMask row.usesRd2 :=
    mrd2 ▸ BitVec.extractLsb'_and
  have hres : reservedField (v &&& t.mask) = reservedField v :=
    BitVec.extractLsb'_and.trans ((congrArg _ mres).trans BitVec.and_allOnes)
  have hchecks : row.opc = opcField v →
      (¬UnusedFieldNonzero v ∧ ¬FieldTooLarge v ↔
        unusedFieldSet row v = false ∧ usedFieldTooLarge row v = false) := fun ho => by
    rw [← unusedFieldSet_iff hrow ho, Bool.not_eq_true]
    exact and_congr_right fun hun => by rw [← usedFieldTooLarge_iff hun, Bool.not_eq_true]
  rw [hpat, eq_wordOfFields_iff, hopc, hrd, hrs1, hrs2, hrd2, hres, eq_comm]
  refine and_congr_right fun ho => ?_
  rw [hchecks ho]
  simp only [and_fieldMask_eq_zero_iff, unusedFieldSet, usedFieldTooLarge, Bool.or_eq_false_iff]
  tauto

/-- A word is accepted as a row's command exactly when it has the row's opcode and passes every
check. -/
theorem accepted_as_row_iff {row : OpRow} (hrow : row ∈ opMap) (v : Word) :
    (∃ i, decode v = .accept i ∧ mnemonicOf i = row.mnemonic) ↔
      (row.opc = opcField v ∧ reservedField v = 0 ∧ ¬UnusedFieldNonzero v ∧ ¬FieldTooLarge v) ∧
        (opcField v = 0x20 → rdField v ≠ rd2Field v) := by
  simp only [decode_eq_iff]
  constructor
  · rintro ⟨i, h, hmn⟩
    cases h with
    | accept row' hrow' hopc hres hun hreg hne =>
      rw [mnemonicOf_build row' hrow', ← opc_eq_iff_mnemonic_eq row' hrow' row hrow] at hmn
      exact ⟨⟨hmn ▸ hopc, hres, hun, hreg⟩, hne⟩
  · rintro ⟨⟨hopc, hres, hun, hreg⟩, hne⟩
    exact ⟨_, .accept row hrow hopc hres hun hreg hne, mnemonicOf_build row hrow _ _ _ _⟩

/-- Settles O5: the accepting answer's conditions, and what each row's mask asks of the fields. -/
theorem legalWordsAreTheTableRows : Obligations.LegalWordsAreTheTableRows := by
  refine ⟨fun v hdef => ?_, fun t ht v => ?_⟩
  · simp only [decode_eq_iff]
    constructor
    · rintro ⟨i, h⟩
      cases h with
      | accept row hrow hopc hres hun hreg hne => exact ⟨hres, hun, hreg, hne⟩
    · rintro ⟨hres, hun, hreg, hne⟩
      obtain ⟨row, hrow, hopc⟩ := (mem_definedOpcodes_iff _).mp hdef
      exact ⟨_, .accept row hrow hopc hres hun hreg hne⟩
  · obtain ⟨row, hrow, hof⟩ := exists_isRowOf t ht
    rw [← hof.1, accepted_as_row_iff hrow, and_mask_eq_pattern_iff hof hrow]
    refine and_congr_right fun ⟨hopc, _⟩ => ?_
    rw [← hopc, opc_divrem_iff row hrow]

/-! ### A CMD write (R92) -/

section Offer
variable (s : State) {v : Word}

theorem State.offer_busy (hb : s.status.busy = true) : s.offer v = s.setOvr := by
  simp [State.offer, hb]

theorem State.offer_reject {r : Reject} (hb : s.status.busy = false) (hd : decode v = .reject r) :
    s.offer v = s.raiseError r.code := by
  simp [State.offer, hb, hd]

end Offer

/-- The step of a CMD write makes what offering its word makes, and is acknowledged. -/
theorem step_cmd_write {s t : State} {v : Word} {rest : List Event}
    (hin : s.inbox = .access (memWrite s.cfg 0x10 v) :: rest) (ht : s.offer v = t) :
    step s = .next { t with inbox := rest, reply := some .ack } := by
  have hpoke : ({ s with inbox := rest } : State).poke v .cmd = { t with inbox := rest } := by
    rw [State.poke_withInbox, State.poke, ht]
  have hwrite := State.writeGives_poke _ v (off := 0x10) (by decide) (by decide) hpoke
  exact (step_cons s hin).trans (congrArg Host.Outcome.next hwrite)

/-- Settles O39: the write offers its word, which is dropped, rejected or accepted. -/
theorem commandWriteOutcomes : Obligations.CommandWriteOutcomes :=
  fun s _ _ hin => ⟨fun hb => step_cmd_write hin (s.offer_busy hb),
    fun hb _ hd => step_cmd_write hin (s.offer_reject hb hd),
    fun hb _ hd => step_cmd_write hin (State.offer_accept hb hd)⟩

/-! ### The one failure (R95, 42_divider.md R135) -/

theorem exec_err_of_zero_divisor {i : Instr} {s t : State} {r : Reg} (h : exec i s = .next t)
    (hdiv : divisorOf i = some r) (hr : s.val r = 0) : t.status.err = 1 := by
  have hfail (a : Nat) (regw : Nat → Nat → List (Reg × Words)) :
      divResult a (s.val r) regw = .fail divZero := by simp [divResult, divCore, hr]
  cases i with
  | divrem rq rr rs1 rs2 =>
    cases hdiv
    have hne : rq ≠ rr := by simpa [Instr.wf] using wf_of_exec_next h
    rw [exec, execDivrem, if_neg hne, hfail] at h
    cases h; rfl
  | div rd rs1 rs2 =>
    cases hdiv
    rw [exec, execDiv, hfail] at h
    cases h; rfl
  | mod rd rs1 rs2 =>
    cases hdiv
    rw [exec, execMod, hfail] at h
    cases h; rfl
  | _ => cases hdiv

theorem exec_failedDivision {i : Instr} {s t : State} (h : exec i s = .next t)
    (he : t.status.err = 1) : s.FailedDivision t := by
  obtain ⟨res, rfl, -, hcode⟩ := exec_next h
  cases res with
  | done regw flagw => cases he
  | fail code =>
    obtain rfl := hcode code rfl
    exact s.commit_fail_spec divZero

/-- Settles O22: a completion has a next state, idle, with ERR = 1 exactly at a zero divisor. -/
theorem onlyAZeroDivisorFails : Obligations.OnlyAZeroDivisorFails := by
  intro i s hwf
  obtain ⟨res, hexec, -⟩ := exec_eq_complete i s hwf
  have h : exec i s = .next (s.commit res) := hexec
  obtain ⟨hp, hb⟩ := exec_idle h
  have herr := exec_err h
  refine ⟨_, h, herr.imp_right And.left, ⟨fun he => ?_, ?_⟩, exec_failedDivision h, hp, hb,
    fun v c hd => State.offer_accept hb hd⟩
  · rcases herr with hzero | ⟨-, hdiv⟩
    · rw [hzero] at he; cases he
    · exact hdiv
  · rintro ⟨r, hdiv, hr⟩
    exact exec_err_of_zero_divisor h hdiv hr

/-! ### The word of a command (R96) -/

/-- The registers a row's fields can name: 0 in an unused field, and two different ones for DIVREM. -/
abbrev RowTakes (row : OpRow) (rd rs1 rs2 rd2 : Reg) : Prop :=
  (row.usesRd = false → rd = 0) ∧ (row.usesRs1 = false → rs1 = 0) ∧
    (row.usesRs2 = false → rs2 = 0) ∧ (row.usesRd2 = false → rd2 = 0) ∧
    (row.opc = 0x20#8 → rd ≠ rd2)

theorem decode_wordOfFields {opc : BitVec 8} {row : OpRow} {rd rs1 rs2 rd2 : Reg}
    (hfind : opMap.find? (fun r => r.opc == opc) = some row) (h : RowTakes row rd rs1 rs2 rd2) :
    decode (wordOfFields opc (fieldOfReg rd) (fieldOfReg rs1) (fieldOfReg rs2) (fieldOfReg rd2)) =
      .accept (row.build rd rs1 rs2 rd2) := by
  obtain ⟨hrd, hrs1, hrs2, hrd2, hne⟩ := h
  have hunused (used : Bool) (r : Reg) (hr : used = false → r = 0) :
      (!used && fieldOfReg r != 0#4) = false := by
    revert used r; decide
  have hused (used : Bool) (r : Reg) : (used && decide (8 ≤ (fieldOfReg r).toNat)) = false := by
    revert used r; decide
  have halias : ¬(row.opc = 0x20#8 ∧ rd = rd2) := fun ⟨ho, he⟩ => hne ho he
  simp only [decode, opcField_wordOfFields, hfind, reservedField_wordOfFields, unusedFieldSet,
    usedFieldTooLarge, rdField_wordOfFields, rs1Field_wordOfFields, rs2Field_wordOfFields,
    rd2Field_wordOfFields, regOfField_fieldOfReg, fieldOfReg_inj, hunused _ _ hrd,
    hunused _ _ hrs1, hunused _ _ hrs2, hunused _ _ hrd2, hused, halias, Bool.or_self,
    Bool.false_eq_true, ne_eq, BitVec.ofNat_eq_ofNat, not_true_eq_false, if_false]

/-- A command whose word is made from the opcode of its row is what that word decodes to. -/
theorem decode_encode_of_row {i : Instr} {opc : BitVec 8} {row : OpRow} {rd rs1 rs2 rd2 : Reg}
    (hword : encode i = wordOfFields opc (fieldOfReg rd) (fieldOfReg rs1) (fieldOfReg rs2)
      (fieldOfReg rd2))
    (hfind : opMap.find? (fun r => r.opc == opc) = some row)
    (hbuild : row.build rd rs1 rs2 rd2 = i) (h : RowTakes row rd rs1 rs2 rd2) :
    decode (encode i) = .accept i := by
  rw [hword, decode_wordOfFields hfind h, hbuild]

/-- The word of a well-formed command decodes to it (R90, R96). -/
theorem decode_encode (i : Instr) (h : i.wf = true) : decode (encode i) = .accept i := by
  cases i with
  | divrem rq rr rs1 rs2 =>
    have hne : rq ≠ rr := by simpa [Instr.wf] using h
    exact decode_encode_of_row rfl rfl rfl (by simp [RowTakes, hne])
  | add | sub | mul | div | mod | pow =>
    exact decode_encode_of_row (rd2 := 0) rfl rfl rfl (by simp [RowTakes])
  | adds | subs | pows | neg | not | shl1 | shr1 | mov =>
    exact decode_encode_of_row (rs2 := 0) (rd2 := 0) rfl rfl rfl (by simp [RowTakes])
  | cmp => exact decode_encode_of_row (rd := 0) (rd2 := 0) rfl rfl rfl (by simp [RowTakes])
  | tstz | tsto =>
    exact decode_encode_of_row (rd := 0) (rs2 := 0) (rd2 := 0) rfl rfl rfl (by simp [RowTakes])
  | clr =>
    exact decode_encode_of_row (rs1 := 0) (rs2 := 0) (rd2 := 0) rfl rfl rfl (by simp [RowTakes])

/-! ### Serving a list of events (R97) -/

/-- s with other events still to arrive and another last reply: the block's own state is that of s
(10_state.md R34). -/
def State.withBus (s : State) (inbox : List Event) (reply : Option Reply) : State :=
  { s with inbox := inbox, reply := reply }

/-- Serving the events takes the block from s to t, whatever arrives after them and whatever the last
reply was. -/
def State.Serves (s : State) (es : List Event) (t : State) : Prop :=
  ∀ rest reply, ∃ reply',
    runSteps es.length (s.withBus (es ++ rest) reply) = .next (t.withBus rest reply')

theorem State.commit_withBus (s : State) (inbox : List Event) (reply : Option Reply)
    (res : Result) :
    (s.withBus inbox reply).commit res = (s.commit res).withBus inbox reply := by
  have hregs (l : List (Reg × Words)) :
      (s.withBus inbox reply).writeRegs l = (s.writeRegs l).withBus inbox reply :=
    List.foldl_hom (State.withBus · inbox reply) fun _ _ => rfl
  have hflags (u : State) (l : List (Flag × Bool)) :
      (u.withBus inbox reply).writeFlags l = (u.writeFlags l).withBus inbox reply :=
    List.foldl_hom (State.withBus · inbox reply) fun _ _ => rfl
  cases res with
  | fail code => rfl
  | done regw flagw => rw [State.commit, hregs, hflags]; rfl

/-- A completion does not look at what is to arrive or at the last reply. -/
theorem exec_withBus {i : Instr} {s t : State} (h : exec i s = .next t) (inbox : List Event)
    (reply : Option Reply) : exec i (s.withBus inbox reply) = .next (t.withBus inbox reply) := by
  obtain ⟨f, hf, hi⟩ := exec_executedBy i (wf_of_exec_next h)
  have hsame : f s = f (s.withBus inbox reply) :=
    hi.reads _ _ ⟨rfl, fun _ _ => rfl, fun _ => rfl⟩
  rw [hf] at h ⊢
  cases h
  rw [complete, ← hsame, State.commit_withBus]

/-- t is idle, with the value v in register rd and the other registers and the configuration of s. -/
abbrev State.LeavesIn (s t : State) (rd : Reg) (v : Nat) : Prop :=
  t.val rd = v ∧ (∀ r, r ≠ rd → t.reg r = s.reg r) ∧ t.cfg = s.cfg ∧ t.status.busy = false

section Serves
variable {s t u : State} {es es' : List Event}

theorem State.serves_nil (s : State) : s.Serves [] s := fun _ reply => ⟨reply, rfl⟩

theorem State.Serves.append (h : s.Serves es t) (h' : t.Serves es' u) :
    s.Serves (es ++ es') u := by
  intro rest reply
  obtain ⟨reply₁, h₁⟩ := h (es' ++ rest) reply
  obtain ⟨reply₂, h₂⟩ := h' rest reply₁
  refine ⟨reply₂, ?_⟩
  rw [List.length_append, runSteps_add, List.append_assoc, h₁]
  exact h₂

theorem State.serves_one {e : Event}
    (h : ∀ rest reply, ∃ reply',
      handleEvent (s.withBus rest reply) e = .next (t.withBus rest reply')) :
    s.Serves [e] t := by
  intro rest reply
  obtain ⟨reply', hstep⟩ := h rest reply
  have hs : step (s.withBus ([e] ++ rest) reply) = .next (t.withBus rest reply') :=
    (step_cons _ rfl).trans hstep
  exact ⟨reply', by rw [List.length_singleton, runSteps, hs]; rfl⟩

theorem State.serves_readOff (s : State) (cfg : Config) (off : Nat) :
    s.Serves (readOff cfg off) s := by
  refine State.serves_one fun rest reply => ?_
  obtain ⟨reply', hread⟩ := (s.withBus rest reply).access_read (memRead cfg off) rfl
  exact ⟨some reply', congrArg Host.Outcome.next (hread reply)⟩

theorem State.serves_writeOff {off : Nat} {v : Word} (hoff : off < 0x20000) (h8 : off % 8 = 0)
    (ht : ∀ rest reply, (s.withBus rest reply).poke v (targetOf s.cfg off) =
      t.withBus rest reply) :
    s.Serves (writeOff s.cfg off v) t := by
  refine State.serves_one fun rest reply => ⟨some .ack, ?_⟩
  exact congrArg Host.Outcome.next (State.writeGives_poke _ v hoff h8 (ht rest reply))

theorem State.serves_setArg (v : Word) (hb : s.status.busy = false) :
    s.Serves (setArg s.cfg v) { s with arg := v } :=
  State.serves_writeOff (by decide) (by decide) fun rest reply =>
    (s.withBus rest reply).poke_arg_idle v hb

theorem State.serves_issue {i : Instr} (hb : s.status.busy = false) (hwf : i.wf = true) :
    s.Serves (issue s.cfg i) (s.latch i) :=
  State.serves_writeOff (by decide) (by decide) fun rest reply =>
    State.offer_accept (s := s.withBus rest reply) hb (decode_encode i hwf)

theorem State.serves_core {i : Instr} (hb : s.status.busy = true) (hp : s.pend = some i)
    (h : exec i s = .next t) : s.Serves [.core] t :=
  State.serves_one fun rest reply => ⟨reply,
    (coreTurn_pending (s.withBus rest reply) hb hp).trans (exec_withBus h rest reply)⟩

theorem State.serves_polls (s : State) (cfg : Config) (off polls : Nat) :
    s.Serves (List.replicate polls (readOff cfg off)).flatten s := by
  induction polls with
  | zero => exact s.serves_nil
  | succ n ih => exact (s.serves_readOff cfg off).append ih

/-- `EXEC i` on the idle block is the completion of i, however long the wait (R92, R94, R97). -/
theorem State.serves_execCmd {i : Instr} (polls : Nat) (hb : s.status.busy = false)
    (h : exec i (s.latch i) = .next t) : s.Serves (execCmd s.cfg polls i) t :=
  (State.serves_issue hb (wf_of_exec_next h)).append
    ((((s.latch i).serves_polls s.cfg 0x08 polls).append (State.serves_core rfl rfl h)).append
      (t.serves_readOff s.cfg 0x08))

/-- EXEC of a command that writes one register and no flag ends idle with that register written. -/
theorem State.serves_execCmd_one {i : Instr} {rd : Reg} {ws : Words} (polls : Nat)
    (hb : s.status.busy = false)
    (h : exec i (s.latch i) = complete (s.latch i) (.done [(rd, ws)] []))
    (hl : ws.length = s.cfg.numWords) :
    ∃ t, s.Serves (execCmd s.cfg polls i) t ∧ s.LeavesIn t rd (valueOf ws) := by
  obtain ⟨hval, -, hreg, -, ⟨-, -, hcfg, -⟩, -, hidle, -⟩ := (s.latch i).commit_one rd ws hl
  exact ⟨_, State.serves_execCmd polls hb h, hval, hreg, hcfg, hidle⟩

/-- A run of events that are served ends with nothing left to arrive, and over if it ends idle
(70_reset_and_hazards.md R231). -/
theorem State.Serves.runEvents {rd : Reg} {v : Nat} (h : s.Serves es t) (ht : s.LeavesIn t rd v) :
    ∃ t, runEvents s es = .next t ∧ t.inbox = [] ∧ t.RunOver ∧ t.val rd = v ∧
      ∀ r, r ≠ rd → t.reg r = s.reg r := by
  obtain ⟨hval, hreg, -, hidle⟩ := ht
  obtain ⟨reply', hrun⟩ := h [] s.reply
  rw [List.append_nil] at hrun
  exact ⟨_, hrun, rfl, ⟨rfl, hidle⟩, hval, hreg⟩

end Serves

/-! ### The pseudo-instructions (R98) -/

theorem State.word_lt_modulus (s : State) (w : Word) : w.toNat < s.modulus :=
  lt_of_lt_of_le w.isLt (Nat.pow_le_pow_right Nat.zero_lt_two (le_width s.cfg))

/-- SETARG and then ADDS add the scalar to rs: INC where it is 1, and the second half of LI. -/
theorem serves_setArg_adds {s : State} (polls : Nat) (rd rs : Reg) (v : Word)
    (hb : s.status.busy = false) :
    ∃ t, s.Serves (setArg s.cfg v ++ execCmd s.cfg polls (.adds rd rs)) t ∧
      s.LeavesIn t rd ((s.val rs + v.toNat) % s.modulus) := by
  obtain ⟨t, ht, hleft⟩ := State.serves_execCmd_one (s := { s with arg := v }) polls hb
    (i := .adds rd rs) rfl (by simp)
  rw [State.valueOf_fit] at hleft
  exact ⟨t, (State.serves_setArg v hb).append ht, hleft⟩

theorem serves_pseudoLi {s : State} (polls polls' : Nat) (rd : Reg) (imm : Word)
    (hb : s.status.busy = false) :
    ∃ t, s.Serves (pseudoLi s.cfg polls polls' rd imm) t ∧ s.LeavesIn t rd imm.toNat := by
  obtain ⟨t, ht, hzero, hreg, hcfg, hidle⟩ :=
    State.serves_execCmd_one polls hb (i := .clr rd) rfl (by simp)
  obtain ⟨u, hu, hval, hreg', hcfg', hidle'⟩ := serves_setArg_adds polls' rd rd imm hidle
  rw [State.valueOf_fit, Nat.zero_mod] at hzero
  rw [hzero, Nat.zero_add, Nat.mod_eq_of_lt (t.word_lt_modulus imm)] at hval
  rw [hcfg] at hu hcfg'
  rw [pseudoLi, List.append_assoc]
  exact ⟨u, ht.append hu, hval, fun r hr => (hreg' r hr).trans (hreg r hr), hcfg', hidle'⟩

/-- Settles O60: each sequence serves its events, one EXEC after the other. -/
theorem hostSequencesHaveTheirResults : Obligations.HostSequencesHaveTheirResults := by
  intro s polls rd rs hregs hb
  refine ⟨fun polls' imm => ?_, ?_, ?_, ?_, ?_⟩
  · obtain ⟨t, ht, hleft⟩ := serves_pseudoLi polls polls' rd imm hb
    exact ht.runEvents hleft
  · obtain ⟨t, ht, hleft⟩ := serves_setArg_adds polls rd rs 1 hb
    exact ht.runEvents hleft
  · obtain ⟨t, ht, hleft⟩ := State.serves_execCmd_one polls hb (i := .mul rd rs rs) rfl (by simp)
    rw [State.valueOf_fit, ← pow_two] at hleft
    exact ht.runEvents hleft
  · obtain ⟨t, ht, hleft⟩ := State.serves_execCmd_one polls hb (i := .shl1 rd rs) rfl (by simp)
    rw [State.valueOf_fit] at hleft
    exact ht.runEvents hleft
  · obtain ⟨t, ht, hleft⟩ := State.serves_execCmd_one polls hb (i := .shr1 rd rs) rfl (by simp)
    have hlt : s.val rs / 2 < s.modulus :=
      lt_of_le_of_lt (Nat.div_le_self _ 2) (State.val_lt hregs rs)
    rw [State.valueOf_fit] at hleft
    exact ht.runEvents (Nat.mod_eq_of_lt hlt ▸ hleft)

end Sys2Proof.Machine

/-! ## The adder family (40_adder.md)

PROOFS. Each word-serial operation of the adder as the words of a number, then what a completion
leaves in its one register; the statements of 40_adder.md follow. -/

namespace Sys2Proof.Machine

/-! ### The words of a number, up to 2^W (00_scope.md R11) -/

theorem wordsOf_congr {n v w : Nat} (h : v ≡ w [MOD 2 ^ (64 * n)]) : wordsOf n v = wordsOf n w :=
  eq_of_valueOf_eq (by simp) (by rw [valueOf_wordsOf, valueOf_wordsOf]; exact h)

theorem State.fit_congr (s : State) {v w : Nat} (h : v ≡ w [MOD s.modulus]) : s.fit v = s.fit w :=
  wordsOf_congr h

theorem State.fit_of_cfg_eq {s t : State} (h : t.cfg = s.cfg) (v : Nat) : t.fit v = s.fit v := by
  rw [State.fit, State.fit, h]

theorem State.fit_val {s : State} (h : s.RegsWf) (r : Reg) : s.fit (s.val r) = s.reg r := by
  rw [State.fit, ← h r, State.val, wordsOf_valueOf]

/-! ### The carry chain (R101) -/

/-- AddWords makes the words of the sum: a step's carry is what the sum of the words so far has
above them. -/
theorem addWords_eq_wordsOf {n : Nat} (c : Nat) {a b : Words} (ha : a.length = n)
    (hb : b.length = n) : addWords c a b = wordsOf n (valueOf a + valueOf b + c) := by
  induction n generalizing c a b with
  | zero =>
    obtain rfl := List.length_eq_zero_iff.mp ha
    rfl
  | succ n ih =>
    obtain ⟨x, as, rfl⟩ := List.exists_cons_of_length_eq_add_one ha
    obtain ⟨y, bs, rfl⟩ := List.exists_cons_of_length_eq_add_one hb
    have hsum : valueOf (x :: as) + valueOf (y :: bs) + c =
        (x.toNat + y.toNat + c) + 2 ^ 64 * (valueOf as + valueOf bs) := by
      simp only [valueOf]; ring
    have hword : BitVec.ofNat 64 (x.toNat + y.toNat + c + 2 ^ 64 * (valueOf as + valueOf bs)) =
        BitVec.ofNat 64 (x.toNat + y.toNat + c) :=
      BitVec.eq_of_toNat_eq (by simp only [BitVec.toNat_ofNat, Nat.add_mul_mod_self_left])
    have hcarry : (x.toNat + y.toNat + c + 2 ^ 64 * (valueOf as + valueOf bs)) / 2 ^ 64 =
        valueOf as + valueOf bs + (x.toNat + y.toNat + c) / 2 ^ 64 := by omega
    rw [hsum, wordsOf, hword, hcarry, addWords, ih _ (by simpa using ha) (by simpa using hb)]

theorem valueOf_addWords {n : Nat} (c : Nat) {a b : Words} (ha : a.length = n) (hb : b.length = n) :
    valueOf (addWords c a b) = (valueOf a + valueOf b + c) % 2 ^ (64 * n) := by
  rw [addWords_eq_wordsOf c ha hb, valueOf_wordsOf]

section Carry
variable (a b : Word) {c : Nat}

theorem carry_le_one (hc : c ≤ 1) : (a.toNat + b.toNat + c) / 2 ^ 64 ≤ 1 := by
  have ha := a.isLt
  have hb := b.isLt
  omega

theorem carry_eq_one_iff (hc : c ≤ 1) :
    (a.toNat + b.toNat + c) / 2 ^ 64 = 1 ↔ 2 ^ 64 ≤ a.toNat + b.toNat + c := by
  have hle := carry_le_one a b hc
  omega

/-- The source's test of the carry, where none came in. -/
theorem carry_eq_one_iff_sum_lt :
    (a.toNat + b.toNat) / 2 ^ 64 = 1 ↔
      (a.toNat + b.toNat) % 2 ^ 64 < a.toNat ∨ (a.toNat + b.toNat) % 2 ^ 64 < b.toNat := by
  have ha := a.isLt
  have hb := b.isLt
  omega

end Carry

/-! ### Negation and subtraction through the carry chain (R103) -/

/-- A value and its complement make 2^W - 1 (00_scope.md R11). -/
theorem valueOf_add_valueOf_notWords (ws : Words) :
    valueOf ws + valueOf (notWords ws) + 1 = 2 ^ (64 * ws.length) := by
  induction ws with
  | nil => rfl
  | cons w ws ih =>
    have hword : w.toNat + (~~~w).toNat + 1 = 2 ^ 64 := by
      have hlt := w.isLt
      rw [BitVec.toNat_not]; omega
    have hpow : (2 : Nat) ^ (64 * (w :: ws).length) = 2 ^ 64 * 2 ^ (64 * ws.length) := by
      rw [← pow_add, List.length_cons]; congr 1; ring
    rw [hpow, ← ih, notWords, List.map_cons, valueOf, valueOf, ← notWords]
    linear_combination hword

theorem negWords_eq_wordsOf (ws : Words) :
    negWords ws = wordsOf ws.length (2 ^ (64 * ws.length) - valueOf ws) := by
  have hnot := valueOf_add_valueOf_notWords ws
  rw [negWords, addWords_eq_wordsOf 1 (notWords_length ws) (zeroWords_length _), valueOf_zeroWords]
  congr 1
  omega

/-- Both branches of SUB make the words of a - b, taken above 2^W. -/
theorem subWords_eq_wordsOf {n : Nat} {a b : Words} (ha : a.length = n) (hb : b.length = n) :
    subWords a b = wordsOf n (valueOf a + (2 ^ (64 * n) - valueOf b)) := by
  unfold subWords
  split
  · next hzero =>
    rw [hzero, Nat.sub_zero, wordsOf_congr (Nat.add_modEq_right), ← ha, wordsOf_valueOf]
  · have hneg : valueOf (negWords b) ≡ 2 ^ (64 * n) - valueOf b [MOD 2 ^ (64 * n)] := by
      rw [negWords_eq_wordsOf, valueOf_wordsOf, hb]; exact Nat.mod_modEq _ _
    rw [addWords_eq_wordsOf 0 ha ((negWords_length b).trans hb), Nat.add_zero]
    exact wordsOf_congr (hneg.add_left _)

/-! ### Subtraction from word 0 alone (R104) -/

section SubWordZero
variable (u : Word) {ws : Words}

theorem subWordZero_eq_set (ws : Words) : subWordZero u ws = ws.set 0 (wordAt ws 0 - u) := by
  cases ws <;> rfl

theorem wordAt_subWordZero_of_pos (ws : Words) {i : Nat} (hi : 0 < i) :
    wordAt (subWordZero u ws) i = wordAt ws i := by
  rw [subWordZero_eq_set, wordAt_set_ne _ hi.ne']

theorem wordAt_zero_le_valueOf (ws : Words) : (wordAt ws 0).toNat ≤ valueOf ws := by
  rw [wordAt_toNat, Nat.mul_zero, pow_zero, Nat.div_one]
  exact Nat.mod_le _ _

/-- Word 0 alone wraps mod 2^64. -/
theorem valueOf_subWordZero (h : 0 < ws.length) :
    valueOf (subWordZero u ws) =
      valueOf ws - (wordAt ws 0).toNat + ((wordAt ws 0).toNat + (2 ^ 64 - u.toNat)) % 2 ^ 64 := by
  rw [subWordZero_eq_set, valueOf_set _ h, BitVec.toNat_sub, Nat.add_comm (2 ^ 64 - u.toNat)]
  simp only [Nat.mul_zero, pow_zero, Nat.mul_one]

theorem valueOf_subWordZero_of_le (h : 0 < ws.length) (hu : u.toNat ≤ (wordAt ws 0).toNat) :
    valueOf (subWordZero u ws) = valueOf ws - u.toNat := by
  have hle := wordAt_zero_le_valueOf ws
  have hlt := (wordAt ws 0).isLt
  rw [valueOf_subWordZero u h]
  omega

theorem valueOf_subWordZero_of_lt (h : 0 < ws.length) (hu : (wordAt ws 0).toNat < u.toNat) :
    valueOf (subWordZero u ws) = valueOf ws + 2 ^ 64 - u.toNat := by
  have hle := wordAt_zero_le_valueOf ws
  have hlt := u.isLt
  rw [valueOf_subWordZero u h]
  omega

end SubWordZero

/-! ### The adder on a block's registers -/

section Registers
variable {s : State} (h : s.RegsWf) (r r' : Reg)
include h

theorem State.reg_length_pos : 0 < (s.reg r).length := by
  rw [h r]; exact (numWords_bounds s.cfg).1

theorem State.addWords_reg : addWords 0 (s.reg r) (s.reg r') = s.fit (s.val r + s.val r') :=
  addWords_eq_wordsOf 0 (h r) (h r')

theorem State.addWords_reg_fit {v : Nat} (hv : v < s.modulus) :
    addWords 0 (s.reg r) (s.fit v) = s.fit (s.val r + v) := by
  rw [addWords_eq_wordsOf 0 (h r) (s.fit_length v), s.valueOf_fit, Nat.mod_eq_of_lt hv]
  rfl

theorem State.subWords_reg :
    subWords (s.reg r) (s.reg r') = s.fit (s.val r + (s.modulus - s.val r')) :=
  subWords_eq_wordsOf (h r) (h r')

end Registers

/-! ### What a completion of the adder leaves in its register -/

section Completion
variable {s t : State} {rd a b : Reg}

@[simp] theorem State.reg_commit_one_same (s : State) (rd : Reg) (ws : Words) :
    (s.commit (.done [(rd, ws)] [])).reg rd = ws := by
  rw [State.reg_commit_done]; exact s.reg_setReg_same rd ws

/-- A command that writes one register of N words completes with that write and nothing else. -/
theorem exec_wroteOne {i : Instr} {ws : Words} {v : Nat}
    (h : exec i s = complete s (.done [(rd, ws)] [])) (hl : ws.length = s.cfg.numWords)
    (hv : valueOf ws = v) : ∃ t, exec i s = .next t ∧ s.WroteOne t rd v :=
  ⟨_, h, hv ▸ s.commit_one rd ws hl⟩

theorem exec_add_reg (h : exec (.add rd a b) s = .next t) :
    t.reg rd = s.fit (s.val a + s.val b) := by
  cases h; exact s.reg_commit_one_same rd _

theorem exec_adds_reg (h : exec (.adds rd a) s = .next t) :
    t.reg rd = s.fit (s.val a + s.arg.toNat) := by
  cases h; exact s.reg_commit_one_same rd _

theorem exec_sub_reg (hw : s.RegsWf) (h : exec (.sub rd a b) s = .next t) :
    t.reg rd = s.fit (s.val a + (s.modulus - s.val b)) := by
  cases h; rw [← State.subWords_reg hw]; exact s.reg_commit_one_same rd _

theorem exec_subs_reg (h : exec (.subs rd a) s = .next t) :
    t.reg rd = subWordZero s.arg (s.reg a) := by
  cases h; exact s.reg_commit_one_same rd _

theorem State.val_of_reg_eq_fit {v : Nat} (h : t.reg rd = s.fit v) : t.val rd = v % s.modulus := by
  rw [State.val, h, State.valueOf_fit]

/-- ADD in the state a completion of i left: its sum, where a and b may be what i wrote. -/
theorem exec_add_reg_after {i : Instr} {u : State} (h : exec i s = .next t)
    (h' : exec (.add rd a b) t = .next u) : u.reg rd = s.fit (t.val a + t.val b) := by
  obtain ⟨-, -, hcfg, -⟩ := exec_sameRest h
  rw [exec_add_reg h', State.fit_of_cfg_eq hcfg]

theorem exec_val_of_not_dest {i : Instr} {r : Reg} (h : exec i s = .next t) (hr : r ∉ destsOf i) :
    t.val r = s.val r :=
  State.val_congr (exec_reg_of_not_dest h hr)

end Completion

/-- Settles O9: what ADD writes is the sum reduced to N words. -/
theorem addWritesTheSum : Obligations.AddWritesTheSum := fun s rd rs1 rs2 =>
  ⟨decode_encode (.add rd rs1 rs2) rfl, exec_wroteOne rfl (s.fit_length _) (s.valueOf_fit _)⟩

/-- Settles O10: what ADDS writes is the sum reduced to N words. -/
theorem addsWritesTheScalarSum : Obligations.AddsWritesTheScalarSum := fun s rd rs1 =>
  ⟨decode_encode (.adds rd rs1) rfl, exec_wroteOne rfl (s.fit_length _) (s.valueOf_fit _)⟩

/-- Settles O11: both branches of SUB write the words of the difference. -/
theorem subWritesTheDifference : Obligations.SubWritesTheDifference := by
  intro s rd rs1 rs2 hw
  have hsub := State.subWords_reg hw rs1 rs2
  refine ⟨decode_encode (.sub rd rs1 rs2) rfl, exec_wroteOne rfl ?_ ?_⟩
  · rw [hsub, s.fit_length]
  · rw [hsub, s.valueOf_fit]

/-- Settles O12: word 0 alone is replaced. -/
theorem subsWrapsWordZeroOnly : Obligations.SubsWrapsWordZeroOnly := by
  intro s rd rs1 hw
  have hpos := State.reg_length_pos hw rs1
  obtain ⟨t, ht, hwrote⟩ := exec_wroteOne (i := .subs rd rs1) (s := s) rfl
    ((subWordZero_length _ _).trans (hw rs1)) (valueOf_subWordZero s.arg hpos)
  have hreg := exec_subs_reg ht
  refine ⟨decode_encode (.subs rd rs1) rfl, t, ht, hwrote, fun i hi => ?_, fun hle => ?_,
    fun hlt => ?_⟩
  · rw [hreg, wordAt_subWordZero_of_pos _ _ hi]
  · rw [State.val, hreg, valueOf_subWordZero_of_le _ hpos hle]; rfl
  · rw [State.val, hreg, valueOf_subWordZero_of_lt _ hpos hlt]; rfl

/-- Settles O13: the chain makes the words of the sum, a carry is what a step's sum has above 64
bits, and ADD and ADDS write the words of the same sums. -/
theorem addWordsIsTheModularSum : Obligations.AddWordsIsTheModularSum := by
  refine ⟨fun n c a b ha hb _ => ⟨?_, valueOf_addWords c ha hb⟩,
    fun a b c hc => ⟨fun _ _ => rfl, carry_le_one a b hc, carry_eq_one_iff a b hc⟩,
    carry_eq_one_iff_sum_lt, fun s hw rd rs1 rs2 => ⟨?_, ?_⟩⟩
  · rw [addWords_length, ha, hb, min_self]
  · exact ⟨_, rfl, (exec_add_reg rfl).trans (State.addWords_reg hw rs1 rs2).symm⟩
  · exact ⟨_, rfl, (exec_adds_reg rfl).trans
      (State.addWords_reg_fit hw rs1 (s.word_lt_modulus s.arg)).symm⟩

/-! ### The laws (R105) -/

section Laws
variable {s t u t' u' : State} {rd a b c : Reg}

theorem exec_add_comm (s : State) (rd a b : Reg) : exec (.add rd a b) s = exec (.add rd b a) s :=
  congrArg (fun v => complete s (.done [(rd, s.fit v)] [])) (Nat.add_comm (s.val a) (s.val b))

theorem exec_add_assoc (ha : rd ≠ a) (hc : rd ≠ c)
    (ht : exec (.add rd a b) s = .next t) (hu : exec (.add rd rd c) t = .next u)
    (ht' : exec (.add rd b c) s = .next t') (hu' : exec (.add rd a rd) t' = .next u') :
    u.reg rd = u'.reg rd := by
  have hval : t.val rd = (s.val a + s.val b) % s.modulus :=
    State.val_of_reg_eq_fit (exec_add_reg ht)
  have hval' : t'.val rd = (s.val b + s.val c) % s.modulus :=
    State.val_of_reg_eq_fit (exec_add_reg ht')
  have hvc : t.val c = s.val c := exec_val_of_not_dest ht (by simpa [destsOf] using hc.symm)
  have hva : t'.val a = s.val a := exec_val_of_not_dest ht' (by simpa [destsOf] using ha.symm)
  rw [exec_add_reg_after ht hu, exec_add_reg_after ht' hu', hval, hval', hvc, hva]
  apply s.fit_congr
  calc (s.val a + s.val b) % s.modulus + s.val c
    _ ≡ s.val a + s.val b + s.val c [MOD s.modulus] := (Nat.mod_modEq _ _).add_right _
    _ ≡ s.val a + (s.val b + s.val c) [MOD s.modulus] := by rw [Nat.add_assoc]
    _ ≡ s.val a + (s.val b + s.val c) % s.modulus [MOD s.modulus] :=
      ((Nat.mod_modEq _ _).symm).add_left _

/-- ADD undoes SUB: a - b + b is a up to one 2^W. -/
theorem exec_add_after_sub (hw : s.RegsWf) (hb : rd ≠ b) (ht : exec (.sub rd a b) s = .next t)
    (hu : exec (.add rd rd b) t = .next u) : u.reg rd = s.reg a := by
  have hval : t.val rd = (s.val a + (s.modulus - s.val b)) % s.modulus :=
    State.val_of_reg_eq_fit (exec_sub_reg hw ht)
  have hvb : t.val b = s.val b := exec_val_of_not_dest ht (by simpa [destsOf] using hb.symm)
  have hle : s.val b ≤ s.modulus := (State.val_lt hw b).le
  rw [exec_add_reg_after ht hu, hval, hvb, ← State.fit_val hw a]
  apply s.fit_congr
  calc (s.val a + (s.modulus - s.val b)) % s.modulus + s.val b
    _ ≡ s.val a + (s.modulus - s.val b) + s.val b [MOD s.modulus] :=
      (Nat.mod_modEq _ _).add_right _
    _ ≡ s.val a + s.modulus [MOD s.modulus] := by rw [Nat.add_assoc, Nat.sub_add_cancel hle]
    _ ≡ s.val a [MOD s.modulus] := Nat.add_modEq_right

theorem exec_adds_one_of_max (ha : s.val a = s.modulus - 1) (harg : s.arg = 1)
    (ht : exec (.adds rd a) s = .next t) : t.val rd = 0 := by
  have hone : s.arg.toNat = 1 := by rw [harg]; rfl
  rw [State.val_of_reg_eq_fit (exec_adds_reg ht), ha, hone, Nat.sub_add_cancel s.modulus_pos,
    Nat.mod_self]

/-- With more than one word, 2^64 is not 0 mod 2^W. -/
theorem State.add_two_pow_mod_ne (hn : 1 < s.cfg.numWords) {v : Nat} (hv : v < s.modulus) :
    (v + 2 ^ 64) % s.modulus ≠ v := by
  have hpow : 2 ^ 64 < s.modulus :=
    Nat.pow_lt_pow_right Nat.one_lt_two (by rw [Config.width]; omega)
  rcases Nat.lt_or_ge (v + 2 ^ 64) s.modulus with hlt | hge
  · rw [Nat.mod_eq_of_lt hlt]; omega
  · rw [Nat.mod_eq_sub_mod hge, Nat.mod_eq_of_lt (by omega)]; omega

/-- SUBS took no borrow from word 1, so ADDS carries one too many into it. -/
theorem exec_adds_after_subs_ne (hw : s.RegsWf) (hn : 1 < s.cfg.numWords)
    (harg : (wordAt (s.reg a) 0).toNat < s.arg.toNat) (ht : exec (.subs rd a) s = .next t)
    (hu : exec (.adds rd rd) t = .next u) : u.reg rd ≠ s.reg a := by
  obtain ⟨htarg, -, hcfg, -⟩ := exec_sameRest ht
  have hsub : t.val rd = s.val a + 2 ^ 64 - s.arg.toNat := by
    rw [State.val, exec_subs_reg ht,
      valueOf_subWordZero_of_lt _ (State.reg_length_pos hw a) harg]
    rfl
  have hsum : t.val rd + t.arg.toNat = s.val a + 2 ^ 64 := by
    have hlt := s.arg.isLt
    rw [hsub, htarg]; omega
  have hval : u.val rd = (s.val a + 2 ^ 64) % s.modulus := by
    rw [State.val_of_reg_eq_fit (exec_adds_reg hu), hsum, State.modulus, hcfg, State.modulus]
  intro heq
  refine State.add_two_pow_mod_ne hn (State.val_lt hw a) ?_
  rw [← hval, State.val, heq, State.val]

end Laws

/-- Settles O14, each law by its lemma. -/
theorem adderLaws : Obligations.AdderLaws :=
  ⟨exec_add_comm, fun _ _ _ _ _ _ _ _ _ ha _ hc => exec_add_assoc ha hc,
    fun _ _ _ _ _ _ hw hb => exec_add_after_sub hw hb,
    fun _ _ _ _ ha harg => exec_adds_one_of_max ha harg,
    fun _ _ _ _ _ hw hn harg => exec_adds_after_subs_ne hw hn harg⟩

end Sys2Proof.Machine

/-! ## The multiplier (41_multiplier.md)

PROOFS. The one-bit shifts as the halves and doubles of a number, the shift-add loop from them, then
what a completion of MUL leaves in its register; the statements of 41_multiplier.md follow. -/

namespace Sys2Proof.Machine

/-! ### The one-bit shifts over words (44_primitives.md R165, R166) -/

/-- A word shifted left with another below it: the two do not overlap, so `or` is a sum. -/
theorem toNat_shiftLeft_or (hi lo : Word) {k : Nat} (hk : k ≤ 64) (hlo : lo.toNat < 2 ^ k) :
    (hi <<< k ||| lo).toNat = 2 ^ k * (hi.toNat % 2 ^ (64 - k)) + lo.toNat := by
  have hpow : (2 : Nat) ^ 64 = 2 ^ k * 2 ^ (64 - k) := by rw [← pow_add, Nat.add_sub_cancel' hk]
  rw [BitVec.toNat_or, BitVec.toNat_shiftLeft, Nat.shiftLeft_eq, Nat.mul_comm, hpow,
    Nat.mul_mod_mul_left, Nat.two_pow_add_eq_or_of_lt hlo]

/-- SHL1 over words makes the words of the double: the bit that leaves a word enters the next. -/
theorem shlWords_eq_wordsOf {c : Word} (hc : c.toNat < 2) (ws : Words) :
    shlWords c ws = wordsOf ws.length (2 * valueOf ws + c.toNat) := by
  induction ws generalizing c with
  | nil => rfl
  | cons w ws ih =>
    have hlt := w.isLt
    have htop : (w >>> 63).toNat = w.toNat / 2 ^ 63 := by
      rw [BitVec.toNat_ushiftRight, Nat.shiftRight_eq_div_pow]
    have hword : w <<< 1 ||| c = BitVec.ofNat 64 (2 * valueOf (w :: ws) + c.toNat) := by
      apply BitVec.eq_of_toNat_eq
      rw [toNat_shiftLeft_or w c (by decide) hc, BitVec.toNat_ofNat, valueOf]
      omega
    have hrest : (2 * valueOf (w :: ws) + c.toNat) / 2 ^ 64 =
        2 * valueOf ws + (w >>> 63).toNat := by
      rw [htop, valueOf]; omega
    rw [shlWords, List.length_cons, wordsOf, ← hword, hrest, ih (by omega)]

theorem valueOf_shlWords_zero (ws : Words) :
    valueOf (shlWords 0 ws) = 2 * valueOf ws % 2 ^ (64 * ws.length) := by
  rw [shlWords_eq_wordsOf (c := 0) (by decide), valueOf_wordsOf]; rfl

/-- SHR1 over words halves the value: bit 0 of a word enters the word below. -/
theorem valueOf_shrWords (ws : Words) : valueOf (shrWords ws) = valueOf ws / 2 := by
  induction ws with
  | nil => rfl
  | cons w ws ih =>
    have hlt := w.isLt
    have hlow : (w >>> 1).toNat = w.toNat / 2 := by
      rw [BitVec.toNat_ushiftRight, Nat.shiftRight_eq_div_pow, pow_one]
    have hword : (w >>> 1 ||| wordAt ws 0 <<< 63).toNat =
        2 ^ 63 * (valueOf ws % 2) + w.toNat / 2 := by
      rw [BitVec.or_comm, toNat_shiftLeft_or _ _ (by decide) (by omega), hlow, wordAt_toNat]
      omega
    rw [shrWords, valueOf, valueOf, hword, ih]
    omega

/-! ### The shift-add loop (R121) -/

/-- One iteration keeps result + a · b, up to 2^W. -/
theorem shiftAdd_step_modEq (m r a b : Nat) :
    (if a.testBit 0 then (r + b) % m else r) + a / 2 * (2 * b % m) ≡ r + a * b [MOD m] := by
  have hdouble : a / 2 * (2 * b % m) ≡ a / 2 * (2 * b) [MOD m] := (Nat.mod_modEq _ _).mul_left _
  cases hbit : a.testBit 0 with
  | true =>
    have hodd : a = 2 * (a / 2) + 1 := by
      rw [Nat.testBit_zero, decide_eq_true_eq] at hbit; omega
    calc (r + b) % m + a / 2 * (2 * b % m)
      _ ≡ r + b + a / 2 * (2 * b) [MOD m] := (Nat.mod_modEq _ _).add hdouble
      _ = r + (2 * (a / 2) + 1) * b := by ring
      _ = r + a * b := by rw [← hodd]
  | false =>
    have heven : a = 2 * (a / 2) := by
      rw [Nat.testBit_zero, decide_eq_false_iff_not] at hbit; omega
    calc r + a / 2 * (2 * b % m)
      _ ≡ r + a / 2 * (2 * b) [MOD m] := hdouble.add_left _
      _ = r + 2 * (a / 2) * b := by ring
      _ = r + a * b := by rw [← heven]

/-- With an iteration for each bit of a, the loop adds a · b to its result. -/
theorem shiftAddLoop_eq_wordsOf {n fuel : Nat} {r a b : Words} (hr : r.length = n)
    (hb : b.length = n) (ha : valueOf a < 2 ^ fuel) :
    shiftAddLoop fuel r a b = wordsOf n (valueOf r + valueOf a * valueOf b) := by
  induction fuel generalizing r a b with
  | zero =>
    have hzero : valueOf a = 0 := by simpa using ha
    rw [shiftAddLoop, hzero, Nat.zero_mul, Nat.add_zero, ← hr, wordsOf_valueOf]
  | succ fuel ih =>
    rw [shiftAddLoop]
    split
    · next hzero => rw [hzero, Nat.zero_mul, Nat.add_zero, ← hr, wordsOf_valueOf]
    · have hhalf : valueOf (shrWords a) < 2 ^ fuel := by
        rw [valueOf_shrWords]; omega
      rw [ih ?_ ((shlWords_length 0 b).trans hb) hhalf, valueOf_shrWords, valueOf_shlWords_zero, hb,
        apply_ite valueOf, valueOf_addWords 0 hr hb, Nat.add_zero]
      · exact wordsOf_congr (shiftAdd_step_modEq _ _ _ _)
      · split
        · rw [addWords_length, hr, hb, min_self]
        · exact hr

/-- From W iterations on, the loop gives the product, however many more it may take. -/
theorem shiftAddLoop_zeroWords {n fuel : Nat} {a b : Words} (ha : a.length = n) (hb : b.length = n)
    (hfuel : 64 * n ≤ fuel) :
    shiftAddLoop fuel (zeroWords n) a b = wordsOf n (valueOf a * valueOf b) := by
  have hlt : valueOf a < 2 ^ fuel :=
    (valueOf_lt a).trans_le (Nat.pow_le_pow_right Nat.two_pos (ha.symm ▸ hfuel))
  rw [shiftAddLoop_eq_wordsOf (zeroWords_length n) hb hlt, valueOf_zeroWords, Nat.zero_add]

/-- Both branches of ShiftAddMul make the words of the product. -/
theorem shiftAddMul_eq_wordsOf {n : Nat} {a b : Words} (ha : a.length = n) (hb : b.length = n) :
    shiftAddMul a b = wordsOf n (valueOf a * valueOf b) := by
  unfold shiftAddMul
  rw [ha]
  split
  · next hzero => exact eq_of_valueOf_eq (by simp) (by simp [hzero])
  · exact shiftAddLoop_zeroWords ha hb le_rfl

/-! ### What a completion of MUL leaves in its register -/

section Completion
variable {s t u : State} {rd a b : Reg}

theorem exec_mul_reg (h : exec (.mul rd a b) s = .next t) :
    t.reg rd = s.fit (s.val a * s.val b) := by
  cases h; exact s.reg_commit_one_same rd _

/-- MUL in the state a completion of i left: its product, where a and b may be what i wrote. -/
theorem exec_mul_reg_after {i : Instr} (h : exec i s = .next t)
    (h' : exec (.mul rd a b) t = .next u) : u.reg rd = s.fit (t.val a * t.val b) := by
  obtain ⟨-, -, hcfg, -⟩ := exec_sameRest h
  rw [exec_mul_reg h', State.fit_of_cfg_eq hcfg]

end Completion

/-- Settles O15: what MUL writes is the product reduced to N words. -/
theorem mulWritesTheProduct : Obligations.MulWritesTheProduct := fun s rd rs1 rs2 =>
  ⟨decode_encode (.mul rd rs1 rs2) rfl, exec_wroteOne rfl (s.fit_length _) (s.valueOf_fit _)⟩

/-- Settles O16: the loop makes the words of the product from W iterations on, and MUL writes the
words of the same product. -/
theorem shiftAddComputesMul : Obligations.ShiftAddComputesMul := by
  refine ⟨fun n a b ha hb => ⟨?_, ?_, fun fuel hfuel => ?_⟩, fun s hw rd rs1 rs2 => ?_⟩
  · rw [shiftAddMul_eq_wordsOf ha hb, wordsOf_length]
  · rw [shiftAddMul_eq_wordsOf ha hb, valueOf_wordsOf]
  · rw [shiftAddLoop_zeroWords ha hb hfuel, shiftAddLoop_zeroWords ha hb le_rfl]
  · exact ⟨_, rfl, (exec_mul_reg rfl).trans (shiftAddMul_eq_wordsOf (hw rs1) (hw rs2)).symm⟩

/-! ### The laws (R122) -/

section Laws
variable {s t u t' u' w' : State} {rd re a b c : Reg}

theorem exec_mul_comm (s : State) (rd a b : Reg) : exec (.mul rd a b) s = exec (.mul rd b a) s :=
  congrArg (fun v => complete s (.done [(rd, s.fit v)] [])) (Nat.mul_comm (s.val a) (s.val b))

theorem exec_mul_assoc (ha : rd ≠ a) (hc : rd ≠ c)
    (ht : exec (.mul rd a b) s = .next t) (hu : exec (.mul rd rd c) t = .next u)
    (ht' : exec (.mul rd b c) s = .next t') (hu' : exec (.mul rd a rd) t' = .next u') :
    u.reg rd = u'.reg rd := by
  have hval : t.val rd = s.val a * s.val b % s.modulus := State.val_of_reg_eq_fit (exec_mul_reg ht)
  have hval' : t'.val rd = s.val b * s.val c % s.modulus :=
    State.val_of_reg_eq_fit (exec_mul_reg ht')
  have hvc : t.val c = s.val c := exec_val_of_not_dest ht (by simpa [destsOf] using hc.symm)
  have hva : t'.val a = s.val a := exec_val_of_not_dest ht' (by simpa [destsOf] using ha.symm)
  rw [exec_mul_reg_after ht hu, exec_mul_reg_after ht' hu', hval, hval', hvc, hva]
  apply s.fit_congr
  calc s.val a * s.val b % s.modulus * s.val c
    _ ≡ s.val a * s.val b * s.val c [MOD s.modulus] := (Nat.mod_modEq _ _).mul_right _
    _ = s.val a * (s.val b * s.val c) := Nat.mul_assoc _ _ _
    _ ≡ s.val a * (s.val b * s.val c % s.modulus) [MOD s.modulus] :=
      ((Nat.mod_modEq _ _).symm).mul_left _

/-- ADD, then MUL. -/
theorem exec_mul_after_add (ha : rd ≠ a) (ht : exec (.add rd b c) s = .next t)
    (hu : exec (.mul rd a rd) t = .next u) :
    u.reg rd = s.fit (s.val a * (s.val b + s.val c)) := by
  have hval : t.val rd = (s.val b + s.val c) % s.modulus :=
    State.val_of_reg_eq_fit (exec_add_reg ht)
  have hva : t.val a = s.val a := exec_val_of_not_dest ht (by simpa [destsOf] using ha.symm)
  rw [exec_mul_reg_after ht hu, hval, hva]
  exact s.fit_congr ((Nat.mod_modEq _ _).mul_left _)

/-- MUL twice, then ADD of the two products. -/
theorem exec_add_after_muls (ha : rd ≠ a) (hc : rd ≠ c) (hre : rd ≠ re)
    (ht' : exec (.mul rd a b) s = .next t') (hu' : exec (.mul re a c) t' = .next u')
    (hw' : exec (.add rd rd re) u' = .next w') :
    w'.reg rd = s.fit (s.val a * s.val b + s.val a * s.val c) := by
  obtain ⟨-, -, hcfg, -⟩ := exec_sameRest ht'
  have hva : t'.val a = s.val a := exec_val_of_not_dest ht' (by simpa [destsOf] using ha.symm)
  have hvc : t'.val c = s.val c := exec_val_of_not_dest ht' (by simpa [destsOf] using hc.symm)
  have hrd : u'.val rd = s.val a * s.val b % s.modulus := by
    rw [exec_val_of_not_dest hu' (by simpa [destsOf] using hre)]
    exact State.val_of_reg_eq_fit (exec_mul_reg ht')
  have hval : u'.val re = s.val a * s.val c % s.modulus := by
    rw [← hva, ← hvc]; exact State.val_of_reg_eq_fit (exec_mul_reg_after ht' hu')
  rw [exec_add_reg_after hu' hw', State.fit_of_cfg_eq hcfg, hrd, hval]
  exact s.fit_congr ((Nat.mod_modEq _ _).add (Nat.mod_modEq _ _))

end Laws

/-- Settles O17, each law by its lemma; both sides of distribution are the words of one number. -/
theorem multiplierLaws : Obligations.MultiplierLaws := by
  refine ⟨exec_mul_comm, fun _ _ _ _ _ _ _ _ _ ha _ hc => exec_mul_assoc ha hc, ?_⟩
  intro s t u t' u' w' rd re a b c ha _ hc _ _ _ hre ht hu ht' hu' hw'
  rw [exec_mul_after_add ha ht hu, exec_add_after_muls ha hc hre ht' hu' hw', Nat.mul_add]

end Sys2Proof.Machine

/-! ## The divider (42_divider.md)

PROOFS. The restoring division as the Euclidean quotient and remainder, then what a completion of
DIVREM, DIV and MOD leaves in its registers; the statements of 42_divider.md follow. -/

namespace Sys2Proof.Machine

/-! ### The restoring division (R131) -/

/-- A divisor b shifted left by k as the normalization may leave it: not above the dividend, and the
guard of another doubling fails. -/
structure NormalizedDivisor (width a b d k : Nat) : Prop where
  shifted : d = b * 2 ^ k
  le_dividend : d ≤ a
  guard_fails : d.testBit (width - 1) = true ∨ a < 2 * d

section Normalize
variable {width a b d k : Nat}

/-- With fuel enough to double d past the top bit, it is the guard that ends the normalization. -/
theorem normalizedDivisor_normalizeDivisor {fuel : Nat} (ha : a < 2 ^ width) (hd : d = b * 2 ^ k)
    (hle : d ≤ a) (hfuel : 2 ^ width ≤ d * 2 ^ fuel) :
    NormalizedDivisor width a b (normalizeDivisor width a fuel d k).1
      (normalizeDivisor width a fuel d k).2 := by
  induction fuel generalizing d k with
  | zero => omega
  | succ fuel ih =>
    rw [normalizeDivisor]
    split
    · next hguard =>
      exact ih (by rw [hd, pow_succ]; ring) hguard.2 (hfuel.trans_eq (by rw [pow_succ]; ring))
    · next hguard =>
      refine ⟨hd, hle, ?_⟩
      rwa [not_and_or, Bool.not_eq_false, Nat.not_le] at hguard

/-- A top bit that is set puts the double above every dividend, as the other guard does. -/
theorem NormalizedDivisor.dividend_lt (h : NormalizedDivisor width a b d k) (hwidth : 0 < width)
    (ha : a < 2 ^ width) : a < 2 * d := by
  refine h.guard_fails.elim (fun htop => ?_) id
  calc a
    _ < 2 ^ width := ha
    _ = 2 * 2 ^ (width - 1) := (mul_pow_sub_one hwidth.ne' 2).symm
    _ ≤ 2 * d := Nat.mul_le_mul_left 2 (Nat.ge_two_pow_of_testBit htop)

theorem NormalizedDivisor.shift_lt_width (h : NormalizedDivisor width a b d k)
    (ha : a < 2 ^ width) (hb : b ≠ 0) : k < width := by
  refine (Nat.pow_lt_pow_iff_right Nat.one_lt_two).mp ?_
  calc 2 ^ k
    _ ≤ b * 2 ^ k := Nat.le_mul_of_pos_left _ (Nat.pos_of_ne_zero hb)
    _ = d := h.shifted.symm
    _ ≤ a := h.le_dividend
    _ < 2 ^ width := ha

end Normalize

/-- n iterations from the divisor shifted left by n - 1 make n quotient bits, where the quotient has
no more: they put rem div b below q and leave rem mod b. -/
theorem quotientLoop_eq_div_mod {b n q rem : Nat} (h : rem < b * 2 ^ n) :
    quotientLoop n q rem (b * 2 ^ n / 2) = (q * 2 ^ n + rem / b, rem % b) := by
  induction n generalizing q rem with
  | zero =>
    rw [pow_zero, Nat.mul_one] at h
    rw [quotientLoop, pow_zero, Nat.mul_one, Nat.div_eq_of_lt h, Nat.mod_eq_of_lt h, Nat.add_zero]
  | succ n ih =>
    have hdouble : b * 2 ^ (n + 1) = b * 2 ^ n * 2 := by rw [pow_succ, Nat.mul_assoc]
    rw [hdouble] at h
    rw [hdouble, Nat.mul_div_cancel _ Nat.two_pos, quotientLoop]
    split
    · next hle =>
      have hb : 0 < b := Nat.pos_of_ne_zero fun hzero => by simp [hzero] at h
      have hquot : 2 ^ n ≤ rem / b := (Nat.le_div_iff_mul_le hb).mpr (by rwa [Nat.mul_comm])
      have hbit : (2 * q + 1) * 2 ^ n = q * 2 ^ (n + 1) + 2 ^ n := by rw [pow_succ]; ring
      rw [ih (by omega), Nat.sub_mul_div, Nat.sub_mul_mod hle, hbit, Nat.add_assoc,
        Nat.add_sub_cancel' hquot]
    · next hlt =>
      have hbit : 2 * q * 2 ^ n = q * 2 ^ (n + 1) := by rw [pow_succ]; ring
      rw [ih (by omega), hbit]

theorem normalizedDivisor_of_le {width a b : Nat} (ha : a < 2 ^ width) (hb : b ≠ 0) (hle : b ≤ a) :
    NormalizedDivisor width a b (normalizeDivisor width a width b 0).1
      (normalizeDivisor width a width b 0).2 :=
  normalizedDivisor_normalizeDivisor ha (Nat.mul_one b).symm hle
    (Nat.le_mul_of_pos_left _ (Nat.pos_of_ne_zero hb))

/-- The dividend is below twice the normalized divisor, so k + 1 iterations find every bit. -/
theorem NormalizedDivisor.quotientLoop_eq {width a b d k : Nat}
    (h : NormalizedDivisor width a b d k) (hwidth : 0 < width) (ha : a < 2 ^ width) :
    quotientLoop (k + 1) 0 a d = (a / b, a % b) := by
  have hdouble : b * 2 ^ (k + 1) = 2 * d := by rw [h.shifted, pow_succ]; ring
  have hloop := quotientLoop_eq_div_mod (q := 0) (hdouble ▸ h.dividend_lt hwidth ha)
  rwa [hdouble, Nat.mul_div_cancel_left d Nat.two_pos, Nat.zero_mul, Nat.zero_add] at hloop

theorem restoringDivide_eq_div_mod {width a b : Nat} (hwidth : 0 < width) (ha : a < 2 ^ width)
    (hb : b ≠ 0) : restoringDivide width a b = (a / b, a % b) := by
  rw [restoringDivide]
  split
  · next hlt => rw [Nat.div_eq_of_lt hlt, Nat.mod_eq_of_lt hlt]
  · next hge => exact (normalizedDivisor_of_le ha hb (Nat.not_lt.mp hge)).quotientLoop_eq hwidth ha

/-- Settles O18: the quotient and remainder of the naturals. -/
theorem divCoreIsEuclidean : Obligations.DivCoreIsEuclidean :=
  ⟨fun _ => if_pos rfl, fun a b hb => ⟨a / b, a % b, if_neg hb, rfl, rfl,
    (Nat.div_add_mod' a b).symm, Nat.mod_lt a (Nat.pos_of_ne_zero hb), Nat.div_le_self a b⟩⟩

/-- Settles O23: the loop divides by what the normalization leaves. -/
theorem restoringDivisionIsEuclidean : Obligations.RestoringDivisionIsEuclidean := by
  refine fun width a b hwidth ha _ hb => ⟨restoringDivide_eq_div_mod hwidth ha hb, fun hle => ?_⟩
  have hnorm := normalizedDivisor_of_le ha hb hle
  exact ⟨_, _, rfl, hnorm.shifted, hnorm.le_dividend, hnorm.le_dividend.trans_lt ha,
    hnorm.shift_lt_width ha hb, hnorm.guard_fails⟩

/-! ### What a completion of the divider leaves in its registers -/

theorem divResult_of_ne_zero (a : Nat) {b : Nat} (hb : b ≠ 0)
    (regw : Nat → Nat → List (Reg × Words)) :
    divResult a b regw = .done (regw (a / b) (a % b)) [] :=
  (divResult_cases a b regw).elim (fun h => absurd h.1 hb) And.right

section Pair
variable (s : State) {rq rr : Reg} (wq wr : Words)

/-- A completion that writes two registers, in their order (R94). -/
theorem State.reg_commit_pair (r : Reg) :
    (s.commit (.done [(rq, wq), (rr, wr)] [])).reg r =
      if r = rr then wr else if r = rq then wq else s.reg r := by
  rw [State.reg_commit_done, State.writeRegs, List.foldl_cons, List.foldl_cons, List.foldl_nil,
    State.reg_setReg, State.reg_setReg]

theorem State.commit_pair (hne : rq ≠ rr) (hq : wq.length = s.cfg.numWords)
    (hr : wr.length = s.cfg.numWords) :
    s.WrotePair (s.commit (.done [(rq, wq), (rr, wr)] [])) rq rr (valueOf wq) (valueOf wr) := by
  have hregq := (s.reg_commit_pair wq wr rq).trans ((if_neg hne).trans (if_pos rfl))
  have hregr := (s.reg_commit_pair (rq := rq) wq wr rr).trans (if_pos rfl)
  exact ⟨congrArg valueOf hregq, (congrArg List.length hregq).trans hq, congrArg valueOf hregr,
    (congrArg List.length hregr).trans hr,
    fun r hrq hrr => (s.reg_commit_pair wq wr r).trans ((if_neg hrr).trans (if_neg hrq)),
    ⟨rfl, rfl, rfl, rfl⟩, ⟨rfl, rfl, rfl, rfl, rfl⟩, rfl, rfl, rfl⟩

end Pair

section Completion
variable {s t u : State} {rd rq rr a b : Reg}

theorem exec_div_of_ne_zero (rd a : Reg) (hb : s.val b ≠ 0) :
    exec (.div rd a b) s = complete s (.done [(rd, s.fit (s.val a / s.val b))] []) :=
  congrArg (complete s) (divResult_of_ne_zero _ hb _)

theorem exec_mod_of_ne_zero (rd a : Reg) (hb : s.val b ≠ 0) :
    exec (.mod rd a b) s = complete s (.done [(rd, s.fit (s.val a % s.val b))] []) :=
  congrArg (complete s) (divResult_of_ne_zero _ hb _)

theorem exec_divrem_of_ne_zero (a : Reg) (hne : rq ≠ rr) (hb : s.val b ≠ 0) :
    exec (.divrem rq rr a b) s = complete s
      (.done [(rq, s.fit (s.val a / s.val b)), (rr, s.fit (s.val a % s.val b))] []) :=
  (if_neg hne).trans (congrArg (complete s) (divResult_of_ne_zero _ hb _))

theorem exec_div_reg (hb : s.val b ≠ 0) (h : exec (.div rd a b) s = .next t) :
    t.reg rd = s.fit (s.val a / s.val b) := by
  rw [exec_div_of_ne_zero rd a hb] at h
  cases h; exact s.reg_commit_one_same rd _

theorem exec_mod_reg (hb : s.val b ≠ 0) (h : exec (.mod rd a b) s = .next t) :
    t.reg rd = s.fit (s.val a % s.val b) := by
  rw [exec_mod_of_ne_zero rd a hb] at h
  cases h; exact s.reg_commit_one_same rd _

theorem exec_divrem_regs (hne : rq ≠ rr) (hb : s.val b ≠ 0)
    (h : exec (.divrem rq rr a b) s = .next t) :
    t.reg rq = s.fit (s.val a / s.val b) ∧ t.reg rr = s.fit (s.val a % s.val b) := by
  rw [exec_divrem_of_ne_zero a hne hb] at h
  cases h
  constructor
  · rw [State.reg_commit_pair, if_neg hne, if_pos rfl]
  · rw [State.reg_commit_pair, if_pos rfl]

/-- A quotient or remainder of two registers is not above the dividend, so N words hold it. -/
theorem State.valueOf_fit_of_le_val (hw : s.RegsWf) {v : Nat} (hv : v ≤ s.val a) :
    valueOf (s.fit v) = v := by
  rw [State.valueOf_fit, Nat.mod_eq_of_lt (hv.trans_lt (State.val_lt hw a))]

theorem exec_div_val (hw : s.RegsWf) (hb : s.val b ≠ 0) (h : exec (.div rd a b) s = .next t) :
    t.val rd = s.val a / s.val b := by
  rw [State.val, exec_div_reg hb h, State.valueOf_fit_of_le_val hw (Nat.div_le_self _ _)]

theorem exec_mod_val (hw : s.RegsWf) (hb : s.val b ≠ 0) (h : exec (.mod rd a b) s = .next t) :
    t.val rd = s.val a % s.val b := by
  rw [State.val, exec_mod_reg hb h, State.valueOf_fit_of_le_val hw (Nat.mod_le _ _)]

theorem exec_cfg {i : Instr} (h : exec i s = .next t) : t.cfg = s.cfg := by
  obtain ⟨-, -, hcfg, -⟩ := exec_sameRest h
  exact hcfg

theorem exec_failedDivision_of_zero {i : Instr} (h : exec i s = .next t)
    (hdiv : divisorOf i = some b) (hb : s.val b = 0) : s.FailedDivision t :=
  exec_failedDivision h (exec_err_of_zero_divisor h hdiv hb)

/-- A command of the divider that completes with one register, unless its divisor is zero. -/
theorem exec_wroteOne_or_failed {i : Instr} {v : Nat} (hw : s.RegsWf) (hwf : i.wf = true)
    (hdiv : divisorOf i = some b) (hv : v ≤ s.val a)
    (h : s.val b ≠ 0 → exec i s = complete s (.done [(rd, s.fit v)] [])) :
    ∃ t, exec i s = .next t ∧ (s.val b ≠ 0 → s.WroteOne t rd v) ∧
      (s.val b = 0 → s.FailedDivision t) := by
  by_cases hb : s.val b = 0
  · obtain ⟨t, ht, -⟩ := onlyAZeroDivisorFails i s hwf
    exact ⟨t, ht, absurd hb, exec_failedDivision_of_zero ht hdiv⟩
  · obtain ⟨t, ht, hwrote⟩ := exec_wroteOne (h hb) (s.fit_length v) (s.valueOf_fit_of_le_val hw hv)
    exact ⟨t, ht, fun _ => hwrote, fun hzero => absurd hzero hb⟩

end Completion

/-- The word of DIVREM with one register for both results (30_encoding.md R89). -/
theorem decode_divrem_aliased (rq rs1 rs2 : Reg) :
    decode (wordOfFields 0x20 (fieldOfReg rq) (fieldOfReg rs1) (fieldOfReg rs2) (fieldOfReg rq)) =
      .reject .aliased := by
  have hopc := opcField_wordOfFields 0x20 (fieldOfReg rq) (fieldOfReg rs1) (fieldOfReg rs2)
    (fieldOfReg rq)
  refine (DecodeAnswer.aliased hopc ?_ (not_unusedFieldNonzero_of_divrem hopc) ?_ ?_).decode_eq
  · simp
  · simp [FieldTooLarge, fieldOfReg_toNat_lt]
  · simp

/-- Settles O19: DIVREM's two writes are to different registers, so both stay. -/
theorem divremWritesBoth : Obligations.DivremWritesBoth := by
  refine fun s rq rr rs1 rs2 hw => ⟨fun hne => ?_, decode_divrem_aliased rq rs1 rs2⟩
  have hwf : (Instr.divrem rq rr rs1 rs2).wf = true := by simpa [Instr.wf] using hne
  obtain ⟨t, ht, -⟩ := onlyAZeroDivisorFails _ s hwf
  refine ⟨decode_encode _ hwf, t, ht, fun hb => ?_, exec_failedDivision_of_zero ht rfl⟩
  have hpair := s.commit_pair (s.fit (s.val rs1 / s.val rs2)) (s.fit (s.val rs1 % s.val rs2)) hne
    (s.fit_length _) (s.fit_length _)
  rw [State.valueOf_fit_of_le_val hw (Nat.div_le_self _ _),
    State.valueOf_fit_of_le_val hw (Nat.mod_le _ _)] at hpair
  rw [exec_divrem_of_ne_zero rs1 hne hb] at ht
  cases ht
  exact hpair

/-- Settles O20: the quotient is not above the dividend. -/
theorem divWritesTheQuotient : Obligations.DivWritesTheQuotient := fun s rd rs1 rs2 hw =>
  ⟨decode_encode (.div rd rs1 rs2) rfl, exec_wroteOne_or_failed hw rfl rfl
    (Nat.div_le_self (s.val rs1) _) (exec_div_of_ne_zero rd rs1)⟩

/-- Settles O21: the remainder is not above the dividend. -/
theorem modWritesTheRemainder : Obligations.ModWritesTheRemainder := fun s rd rs1 rs2 hw =>
  ⟨decode_encode (.mod rd rs1 rs2) rfl, exec_wroteOne_or_failed hw rfl rfl
    (Nat.mod_le (s.val rs1) _) (exec_mod_of_ne_zero rd rs1)⟩

/-! ### The laws (R137) -/

section Laws
variable {s t u v w : State} {q r a b : Reg}

/-- The product of quotient and divisor is not above the dividend, so MUL after DIV does not wrap. -/
theorem exec_mul_val_after_div (hw : s.RegsWf) (hb : s.val b ≠ 0) (hqb : q ≠ b)
    (ht : exec (.div q a b) s = .next t) (hu : exec (.mul q q b) t = .next u) :
    u.val q = s.val a / s.val b * s.val b := by
  have htb : t.val b = s.val b := exec_val_of_not_dest ht (by simpa [destsOf] using hqb.symm)
  rw [State.val, exec_mul_reg_after ht hu, exec_div_val hw hb ht, htb,
    State.valueOf_fit_of_le_val hw (Nat.div_mul_le_self _ _)]

/-- DIV, MUL, MOD and ADD give the dividend back. -/
theorem exec_add_after_div_mul_mod (hw : s.RegsWf) (hb : s.val b ≠ 0) (hqa : q ≠ a) (hqb : q ≠ b)
    (hrq : r ≠ q) (ht : exec (.div q a b) s = .next t) (hu : exec (.mul q q b) t = .next u)
    (hv : exec (.mod r a b) u = .next v) (hadd : exec (.add q q r) v = .next w) :
    w.reg q = s.reg a := by
  have hkept {c : Reg} (hc : q ≠ c) : u.val c = s.val c :=
    (exec_val_of_not_dest hu (by simpa [destsOf] using hc.symm)).trans
      (exec_val_of_not_dest ht (by simpa [destsOf] using hc.symm))
  have huw : u.RegsWf := exec_regsWf hu (exec_regsWf ht hw)
  have hcfg : u.cfg = s.cfg := (exec_cfg hu).trans (exec_cfg ht)
  have hvq : v.val q = s.val a / s.val b * s.val b :=
    (exec_val_of_not_dest hv (by simpa [destsOf] using hrq.symm)).trans
      (exec_mul_val_after_div hw hb hqb ht hu)
  have hvr : v.val r = s.val a % s.val b := by
    rw [exec_mod_val huw (by rwa [hkept hqb]) hv, hkept hqa, hkept hqb]
  rw [exec_add_reg_after hv hadd, hvq, hvr, Nat.div_add_mod', State.fit_of_cfg_eq hcfg,
    State.fit_val hw]

theorem exec_mod_val_lt (hw : s.RegsWf) (hb : s.val b ≠ 0) (h : exec (.mod r a b) s = .next t) :
    t.val r < s.val b := by
  rw [exec_mod_val hw hb h]
  exact Nat.mod_lt _ (Nat.pos_of_ne_zero hb)

theorem exec_err_and_x_of_zero_divisor {i : Instr} (h : exec i s = .next t)
    (hdiv : divisorOf i = some b) (hb : s.val b = 0) : t.status.err = 1 ∧ t.x = s.x :=
  have herr := exec_err_of_zero_divisor h hdiv hb
  ⟨herr, State.x_ext (exec_failedDivision h herr).1⟩

end Laws

/-- Settles O24, each law by its lemma. -/
theorem dividerLaws : Obligations.DividerLaws := by
  refine ⟨fun s t u v w q r a b hw hb => exec_add_after_div_mul_mod hw hb,
    fun _ _ _ _ _ hw hb => exec_mod_val_lt hw hb, ?_, ?_⟩
  · intro s t u v q r a b hne hb ht hu hv
    rw [exec_div_reg hb hu, exec_mod_reg hb hv]
    exact exec_divrem_regs hne hb ht
  · intro s t u v q r a b hb ht hu hv
    obtain ⟨hte, htx⟩ := exec_err_and_x_of_zero_divisor ht rfl hb
    obtain ⟨hue, hux⟩ := exec_err_and_x_of_zero_divisor hu rfl hb
    obtain ⟨hve, hvx⟩ := exec_err_and_x_of_zero_divisor hv rfl hb
    exact ⟨hte, hue, hve, htx, hux, hvx⟩

end Sys2Proof.Machine

/-! ## The exponentiation engine (43_exponentiation.md)

PROOFS. The square-and-multiply loop as a power mod m, then what a completion of POW and POWS leaves
in its register; the statements of 43_exponentiation.md follow. -/

namespace Sys2Proof.Machine

/-! ### Square and multiply (R150) -/

/-- One iteration keeps result · base ^ e, up to a multiple of m. -/
theorem squareMultiply_step_modEq (m r b e : Nat) :
    (if e.testBit 0 then r * b % m else r) * (b * b % m) ^ (e / 2) ≡ r * b ^ e [MOD m] := by
  have hsquare : (b * b % m) ^ (e / 2) ≡ (b * b) ^ (e / 2) [MOD m] := (Nat.mod_modEq _ _).pow _
  cases hbit : e.testBit 0 with
  | true =>
    have hodd : e = 2 * (e / 2) + 1 := by
      rw [Nat.testBit_zero, decide_eq_true_eq] at hbit; omega
    calc r * b % m * (b * b % m) ^ (e / 2)
      _ ≡ r * b * (b * b) ^ (e / 2) [MOD m] := (Nat.mod_modEq _ _).mul hsquare
      _ = r * b ^ (2 * (e / 2) + 1) := by rw [pow_succ, pow_mul, pow_two]; ring
      _ = r * b ^ e := by rw [← hodd]
  | false =>
    have heven : e = 2 * (e / 2) := by
      rw [Nat.testBit_zero, decide_eq_false_iff_not] at hbit; omega
    calc r * (b * b % m) ^ (e / 2)
      _ ≡ r * (b * b) ^ (e / 2) [MOD m] := hsquare.mul_left _
      _ = r * b ^ (2 * (e / 2)) := by rw [pow_mul, pow_two]
      _ = r * b ^ e := by rw [← heven]

/-- With an iteration for each bit of e, the loop multiplies its reduced result by base ^ e. -/
theorem powLoop_eq_mul_pow_mod {m fuel r b e : Nat} (hr : r < m) (he : e < 2 ^ fuel) :
    powLoop m fuel r b e = r * b ^ e % m := by
  induction fuel generalizing r b e with
  | zero =>
    obtain rfl : e = 0 := by simpa using he
    rw [powLoop, pow_zero, Nat.mul_one, Nat.mod_eq_of_lt hr]
  | succ fuel ih =>
    rw [powLoop]
    split
    · next hzero => rw [hzero, pow_zero, Nat.mul_one, Nat.mod_eq_of_lt hr]
    · have hhalf : e / 2 < 2 ^ fuel := by omega
      rw [ih ?_ hhalf]
      · exact squareMultiply_step_modEq m r b e
      · split
        · exact Nat.mod_lt _ (Nat.zero_lt_of_lt hr)
        · exact hr

theorem powLoop_one_eq_pow_mod {m fuel e : Nat} (hm : 1 < m) (a : Nat) (he : e < 2 ^ fuel) :
    powLoop m fuel 1 a e = a ^ e % m := by
  rw [powLoop_eq_mul_pow_mod hm he, Nat.one_mul]

theorem powCore_eq_pow_mod {m bits e : Nat} (hm : 1 < m) (a : Nat) (he : e < 2 ^ bits) :
    powCore m bits a e = a ^ e % m :=
  powLoop_one_eq_pow_mod hm a he

/-- Settles O27: from one iteration per bit on, the loop gives the power, however many more it may
take. -/
theorem powCoreIsThePower : Obligations.PowCoreIsThePower := by
  intro width bits a e hwidth he
  have hm : 1 < 2 ^ width := Nat.one_lt_two_pow hwidth.ne'
  refine ⟨powCore_eq_pow_mod hm a he, ?_, fun fuel hfuel => ?_⟩
  · rw [powCore_eq_pow_mod hm a (Nat.two_pow_pos bits), pow_zero, Nat.mod_eq_of_lt hm]
  · rw [powLoop_one_eq_pow_mod hm a (he.trans_le (Nat.pow_le_pow_right Nat.two_pos hfuel)),
      powLoop_one_eq_pow_mod hm a he]

/-! ### What a completion of POW and POWS leaves in its register -/

section Completion
variable {s t : State} {rd a b : Reg}

theorem State.one_lt_modulus (s : State) : 1 < s.modulus := s.word_lt_modulus 1

theorem State.fit_powCore (s : State) {bits e : Nat} (a : Nat) (he : e < 2 ^ bits) :
    s.fit (powCore s.modulus bits a e) = s.fit (a ^ e) := by
  rw [powCore_eq_pow_mod s.one_lt_modulus a he]
  exact s.fit_congr (Nat.mod_modEq _ _)

theorem exec_pow_of_lt (rd a : Reg) (hb : s.val b < s.modulus) :
    exec (.pow rd a b) s = complete s (.done [(rd, s.fit (s.val a ^ s.val b))] []) :=
  congrArg (fun ws => complete s (.done [(rd, ws)] [])) (s.fit_powCore _ hb)

theorem exec_pows_eq_complete (s : State) (rd a : Reg) :
    exec (.pows rd a) s = complete s (.done [(rd, s.fit (s.val a ^ s.arg.toNat))] []) :=
  congrArg (fun ws => complete s (.done [(rd, ws)] [])) (s.fit_powCore _ s.arg.isLt)

theorem exec_pow_reg (hb : s.val b < s.modulus) (h : exec (.pow rd a b) s = .next t) :
    t.reg rd = s.fit (s.val a ^ s.val b) := by
  rw [exec_pow_of_lt rd a hb] at h
  cases h; exact s.reg_commit_one_same rd _

end Completion

/-- Settles O25: W iterations are enough for the exponent of a well-formed register. -/
theorem powWritesThePower : Obligations.PowWritesThePower := fun s rd rs1 rs2 hw =>
  ⟨decode_encode (.pow rd rs1 rs2) rfl, exec_wroteOne
    (exec_pow_of_lt rd rs1 (State.val_lt hw rs2)) (s.fit_length _) (s.valueOf_fit _)⟩

/-- Settles O26: 64 iterations are enough for every ARG. -/
theorem powsWritesTheScalarPower : Obligations.PowsWritesTheScalarPower := fun s rd rs1 =>
  ⟨decode_encode (.pows rd rs1) rfl, exec_wroteOne
    (exec_pows_eq_complete s rd rs1) (s.fit_length _) (s.valueOf_fit _)⟩

/-! ### The laws (R153, R154) -/

section Laws
variable {s t u v w : State} {rd re a e m n mn : Reg}

theorem exec_pows_eq_exec_pow (rd a : Reg) (he : s.val e = s.arg.toNat) :
    exec (.pows rd a) s = exec (.pow rd a e) s := by
  rw [exec_pows_eq_complete, exec_pow_of_lt rd a (he ▸ s.word_lt_modulus s.arg), he]

theorem exec_pow_val_of_zero (he : s.val e = 0) (h : exec (.pow rd a e) s = .next t) :
    t.val rd = 1 := by
  rw [State.val_of_reg_eq_fit (exec_pow_reg (he ▸ s.modulus_pos) h), he, pow_zero,
    Nat.mod_eq_of_lt s.one_lt_modulus]

theorem exec_pow_reg_of_one (hw : s.RegsWf) (he : s.val e = 1)
    (h : exec (.pow rd a e) s = .next t) : t.reg rd = s.reg a := by
  rw [exec_pow_reg (State.val_lt hw e) h, he, pow_one, State.fit_val hw]

/-- POW twice, then MUL of the two powers. -/
theorem exec_mul_after_pows (hw : s.RegsWf) (ha : rd ≠ a) (hn : rd ≠ n) (hre : re ≠ rd)
    (ht : exec (.pow rd a m) s = .next t) (hu : exec (.pow re a n) t = .next u)
    (hv : exec (.mul rd rd re) u = .next v) :
    v.reg rd = s.fit (s.val a ^ (s.val m + s.val n)) := by
  have htw : t.RegsWf := exec_regsWf ht hw
  have hva : t.val a = s.val a := exec_val_of_not_dest ht (by simpa [destsOf] using ha.symm)
  have hvn : t.val n = s.val n := exec_val_of_not_dest ht (by simpa [destsOf] using hn.symm)
  have hrd : u.val rd = s.val a ^ s.val m % s.modulus := by
    rw [exec_val_of_not_dest hu (by simpa [destsOf] using hre.symm)]
    exact State.val_of_reg_eq_fit (exec_pow_reg (State.val_lt hw m) ht)
  have hval : u.val re = s.val a ^ s.val n % s.modulus := by
    apply State.val_of_reg_eq_fit
    rw [exec_pow_reg (State.val_lt htw n) hu, hva, hvn, State.fit_of_cfg_eq (exec_cfg ht)]
  rw [exec_mul_reg_after hu hv, State.fit_of_cfg_eq (exec_cfg ht), hrd, hval, pow_add]
  exact s.fit_congr ((Nat.mod_modEq _ _).mul (Nat.mod_modEq _ _))

end Laws

/-- Settles O28, each law by its lemma; the register mn holds m + n, so the sum does not wrap. -/
theorem powerLaws : Obligations.PowerLaws := by
  refine ⟨fun _ rd a _ => exec_pows_eq_exec_pow rd a, fun _ _ _ _ _ => exec_pow_val_of_zero,
    fun _ _ _ _ _ hw => exec_pow_reg_of_one hw, ?_⟩
  intro s t u v w rd re a m n mn hw hmn ha hn hre hpow ht hu hv
  rw [exec_mul_after_pows hw ha hn hre ht hu hv, exec_pow_reg (State.val_lt hw mn) hpow, hmn]

end Sys2Proof.Machine

/-! ## The comparator and primitives (44_primitives.md)

PROOFS. The bits of a word as bits of the operand's value, the words of a zero and of a complement,
then what a completion leaves in its flags or its one register; the statements of 44_primitives.md
follow. -/

namespace Sys2Proof.Machine

/-! ### The bits, the zero and the complement of an operand (00_scope.md R10, R11) -/

/-- Bit k of word i is bit 64i + k of the value (R10). -/
theorem getLsbD_wordAt (ws : Words) (i : Nat) {k : Nat} (hk : k < 64) :
    (wordAt ws i).getLsbD k = (valueOf ws).testBit (64 * i + k) := by
  rw [← BitVec.testBit_toNat, wordAt_toNat, Nat.testBit_mod_two_pow, Nat.testBit_div_two_pow,
    decide_eq_true hk, Bool.true_and, Nat.add_comm]

/-- Reducing a value to N words keeps the bits of each of them (R11). -/
theorem State.getLsbD_wordAt_fit (s : State) (v : Nat) {i k : Nat} (hi : i < s.cfg.numWords)
    (hk : k < 64) : (wordAt (s.fit v) i).getLsbD k = v.testBit (64 * i + k) := by
  have hbit : 64 * i + k < s.cfg.width := by rw [Config.width]; omega
  rw [getLsbD_wordAt _ _ hk, s.valueOf_fit, State.modulus, Nat.testBit_mod_two_pow,
    decide_eq_true hbit, Bool.true_and]

theorem valueOf_eq_zero_iff (ws : Words) : valueOf ws = 0 ↔ ∀ w ∈ ws, w = 0 := by
  induction ws with
  | nil => simp [valueOf]
  | cons w ws ih =>
    have hword : w.toNat = 0 ↔ w = 0 := BitVec.toNat_inj (y := 0)
    have hrest : 2 ^ 64 * valueOf ws = 0 ↔ valueOf ws = 0 := by omega
    rw [valueOf, Nat.add_eq_zero_iff, hword, hrest, ih, List.forall_mem_cons]

theorem valueOf_notWords (ws : Words) :
    valueOf (notWords ws) = 2 ^ (64 * ws.length) - 1 - valueOf ws := by
  have hsum := valueOf_add_valueOf_notWords ws
  omega

theorem wordAt_notWords {ws : Words} {i : Nat} (hi : i < ws.length) :
    wordAt (notWords ws) i = ~~~wordAt ws i := by
  simp [wordAt, notWords, hi]

theorem State.negWords_reg {s : State} (h : s.RegsWf) (r : Reg) :
    negWords (s.reg r) = s.fit (s.modulus - s.val r) := by
  rw [negWords_eq_wordsOf, h r]; rfl

/-! ### What a completion of a test or an operator leaves -/

section Completion
variable {s t : State} {rd a : Reg}

/-- A command that writes flags alone completes with no register written. -/
theorem exec_wroteNoReg {i : Instr} {flagw : List (Flag × Bool)}
    (h : exec i s = complete s (.done [] flagw)) : ∃ t, exec i s = .next t ∧ s.WroteNoReg t :=
  ⟨_, h, s.commit_flags flagw⟩

theorem exec_not_reg (h : exec (.not rd a) s = .next t) : t.reg rd = notWords (s.reg a) := by
  cases h; exact s.reg_commit_one_same rd _

theorem exec_shl1_reg (h : exec (.shl1 rd a) s = .next t) : t.reg rd = s.fit (2 * s.val a) := by
  cases h; exact s.reg_commit_one_same rd _

theorem exec_shr1_reg (h : exec (.shr1 rd a) s = .next t) : t.reg rd = s.fit (s.val a / 2) := by
  cases h; exact s.reg_commit_one_same rd _

end Completion

/-! ### The bits a one-bit shift moves (R165, R166) -/

section Shifts
variable {s t : State} {rd a : Reg} {i j k l : Nat}

/-- SHL1 puts the bit below in each bit position but the lowest, also across words. -/
theorem exec_shl1_bit (h : exec (.shl1 rd a) s = .next t) (hi : i < s.cfg.numWords) (hk : k < 64)
    (hl : l < 64) (hbelow : 64 * i + k = 64 * j + l + 1) :
    (wordAt (t.reg rd) i).getLsbD k = (wordAt (s.reg a) j).getLsbD l := by
  rw [exec_shl1_reg h, s.getLsbD_wordAt_fit _ hi hk, hbelow, Nat.testBit_add_one,
    Nat.mul_div_cancel_left _ Nat.two_pos, getLsbD_wordAt _ _ hl, State.val]

/-- The double is even. -/
theorem exec_shl1_lowest_bit (h : exec (.shl1 rd a) s = .next t) :
    (wordAt (t.reg rd) 0).getLsbD 0 = false := by
  rw [exec_shl1_reg h, s.getLsbD_wordAt_fit _ (numWords_bounds s.cfg).1 (by decide)]
  simp [Nat.testBit_zero]

/-- SHR1 puts the bit above in each bit position but the highest, also across words. -/
theorem exec_shr1_bit (h : exec (.shr1 rd a) s = .next t) (hi : i < s.cfg.numWords) (hk : k < 64)
    (hl : l < 64) (habove : 64 * i + k + 1 = 64 * j + l) :
    (wordAt (t.reg rd) i).getLsbD k = (wordAt (s.reg a) j).getLsbD l := by
  rw [exec_shr1_reg h, s.getLsbD_wordAt_fit _ hi hk, ← Nat.testBit_add_one, habove,
    getLsbD_wordAt _ _ hl, State.val]

/-- The value has no bit W, so 0 enters at the top. -/
theorem exec_shr1_top_bit (hw : s.RegsWf) (h : exec (.shr1 rd a) s = .next t) :
    (wordAt (t.reg rd) (s.cfg.numWords - 1)).getLsbD 63 = false := by
  have hpos := (numWords_bounds s.cfg).1
  have hwidth : 64 * (s.cfg.numWords - 1) + 63 + 1 = s.cfg.width := by rw [Config.width]; omega
  rw [exec_shr1_reg h, s.getLsbD_wordAt_fit _ (by omega) (by decide), ← Nat.testBit_add_one, hwidth]
  exact Nat.testBit_lt_two_pow (State.val_lt hw a)

end Shifts

/-! ### The tests -/

/-- Settles O29: the two flags CMP writes, and the frame of the others. -/
theorem cmpComparesMagnitudes : Obligations.CmpComparesMagnitudes := by
  intro s rs1 rs2
  obtain ⟨t, ht, hnoreg⟩ := exec_wroteNoReg (i := .cmp rs1 rs2) (s := s) rfl
  obtain ⟨hlt, hgt⟩ := exec_cmp_lt_gt ht
  exact ⟨decode_encode (.cmp rs1 rs2) rfl, t, ht, hnoreg, by rw [hlt, decide_eq_true_iff],
    by rw [hgt, decide_eq_true_iff],
    exec_flag_of_not_named ht (f := .z) (by simp [flagsOf]),
    exec_flag_of_not_named ht (f := .odd) (by simp [flagsOf])⟩

/-- Settles O30: a value is 0 exactly when all its words are. -/
theorem tstzTestsZero : Obligations.TstzTestsZero := by
  intro s rs1
  obtain ⟨t, ht, hnoreg⟩ := exec_wroteNoReg (i := .tstz rs1) (s := s) rfl
  have hz : t.status.z = true ↔ s.val rs1 = 0 := by rw [exec_tstz_z ht, decide_eq_true_iff]
  exact ⟨decode_encode (.tstz rs1) rfl, t, ht, hnoreg, hz, hz.trans (valueOf_eq_zero_iff _),
    exec_flag_of_not_named ht (f := .odd) (by simp [flagsOf]),
    exec_flag_of_not_named ht (f := .lt) (by simp [flagsOf]),
    exec_flag_of_not_named ht (f := .gt) (by simp [flagsOf])⟩

/-- Settles O31: bit 0 is the value's parity. -/
theorem tstoTestsBitZero : Obligations.TstoTestsBitZero := by
  intro s rs1
  obtain ⟨t, ht, hnoreg⟩ := exec_wroteNoReg (i := .tsto rs1) (s := s) rfl
  have hodd : t.status.odd = true ↔ s.val rs1 % 2 = 1 := by
    rw [exec_tsto_odd ht, Nat.testBit_zero, decide_eq_true_iff]
  exact ⟨decode_encode (.tsto rs1) rfl, t, ht, hnoreg, hodd,
    exec_flag_of_not_named ht (f := .z) (by simp [flagsOf]),
    exec_flag_of_not_named ht (f := .lt) (by simp [flagsOf]),
    exec_flag_of_not_named ht (f := .gt) (by simp [flagsOf])⟩

/-! ### The operators -/

/-- Settles O32: the carry chain over the complement makes the words of 2^W - x, reduced. -/
theorem negWritesTheNegation : Obligations.NegWritesTheNegation := by
  intro s rd rs1 hw
  have hneg := State.negWords_reg hw rs1
  refine ⟨decode_encode (.neg rd rs1) rfl, exec_wroteOne rfl ?_ ?_⟩
  · rw [hneg, s.fit_length]
  · rw [hneg, s.valueOf_fit]

/-- Settles O33: a value and its complement make 2^W - 1, word by word and as a whole. -/
theorem notWritesTheComplement : Obligations.NotWritesTheComplement := by
  intro s rd rs1 hw
  have hval : valueOf (notWords (s.reg rs1)) = s.modulus - 1 - s.val rs1 := by
    rw [valueOf_notWords, hw rs1]; rfl
  obtain ⟨t, ht, hwrote⟩ := exec_wroteOne (i := .not rd rs1) (s := s) rfl
    ((notWords_length _).trans (hw rs1)) hval
  refine ⟨decode_encode (.not rd rs1) rfl, t, ht, hwrote, fun i hi => ?_⟩
  rw [exec_not_reg ht, wordAt_notWords (by rwa [hw rs1]), BitVec.toNat_not]

/-- Settles O34: each bit of the result is the bit of the source below it. -/
theorem shl1DoublesWordByWord : Obligations.Shl1DoublesWordByWord := by
  intro s rd rs1
  obtain ⟨t, ht, hwrote⟩ := exec_wroteOne (i := .shl1 rd rs1) (s := s) rfl
    (s.fit_length _) (s.valueOf_fit _)
  exact ⟨decode_encode (.shl1 rd rs1) rfl, t, ht, hwrote, exec_shl1_lowest_bit ht,
    fun i k hi hk => exec_shl1_bit ht hi (by omega) (by omega) rfl,
    fun i hi => exec_shl1_bit ht hi (by decide) (by decide) rfl⟩

/-- Settles O35: each bit of the result is the bit of the source above it. -/
theorem shr1HalvesWordByWord : Obligations.Shr1HalvesWordByWord := by
  intro s rd rs1 hw
  have hhalf : valueOf (s.fit (s.val rs1 / 2)) = s.val rs1 / 2 :=
    State.valueOf_fit_of_le_val hw (Nat.div_le_self _ 2)
  obtain ⟨t, ht, hwrote⟩ := exec_wroteOne (i := .shr1 rd rs1) (s := s) rfl (s.fit_length _) hhalf
  exact ⟨decode_encode (.shr1 rd rs1) rfl, t, ht, hwrote, exec_shr1_top_bit hw ht,
    fun i k hi hk => exec_shr1_bit ht hi (by omega) (by omega) rfl,
    fun i hi => exec_shr1_bit ht (by omega) (by decide) (by decide) rfl⟩

end Sys2Proof.Machine

/-! ## Data movement (45_data_movement.md)

PROOFS. What MOV leaves in its register and the words of the value 0; the statements of
45_data_movement.md follow. -/

namespace Sys2Proof.Machine

/-- Each word of the value 0 is 0, and so is what is read above the last (R10). -/
theorem wordAt_of_valueOf_eq_zero {ws : Words} (h : valueOf ws = 0) (i : Nat) : wordAt ws i = 0 := by
  apply BitVec.eq_of_toNat_eq
  rw [wordAt_toNat, h, Nat.zero_div]
  rfl

theorem exec_mov_reg {s t : State} {rd a : Reg} (h : exec (.mov rd a) s = .next t) :
    t.reg rd = s.reg a := by
  cases h; exact s.reg_commit_one_same rd _

/-- Settles O36: what MOV writes is the source's own words, so rd may be the source. -/
theorem movCopies : Obligations.MovCopies := by
  intro s rd rs1 hw
  obtain ⟨t, ht, hwrote⟩ := exec_wroteOne (i := .mov rd rs1) (s := s) rfl (hw rs1) rfl
  exact ⟨decode_encode (.mov rd rs1) rfl, t, ht, exec_mov_reg ht, hwrote⟩

/-- Settles O37: the value 0 fits in N words, and each of its words is 0. -/
theorem clrClears : Obligations.ClrClears := by
  intro s rd
  have hzero : valueOf (s.fit 0) = 0 := by rw [s.valueOf_fit, Nat.zero_mod]
  obtain ⟨t, ht, hval, hrest⟩ := exec_wroteOne (i := .clr rd) (s := s) rfl (s.fit_length 0) hzero
  exact ⟨decode_encode (.clr rd) rfl, t, ht, wordAt_of_valueOf_eq_zero hval, hval, hrest⟩

end Sys2Proof.Machine

/-! ## Exceptions (60_exceptions.md)

PROOFS. Where the core's turn has a next state and where it has none; the statement of
60_exceptions.md R200 follows. -/

namespace Sys2Proof.Machine

section Stops
variable {s : State}

theorem exec_next_of_wf {i : Instr} (h : i.wf = true) (s : State) : ∃ t, exec i s = .next t := by
  obtain ⟨res, he, -⟩ := exec_eq_complete i s h
  exact ⟨s.commit res, he⟩

/-- A busy core holds a well-formed command, and an idle one has nothing to do (10_state.md R31). -/
theorem coreTurn_next_of_latchWf (h : s.LatchWf) : ∃ t, coreTurn s = .next t := by
  obtain ⟨hbusy, hwf⟩ := h
  cases hp : s.pend with
  | none =>
    rw [hp] at hbusy
    exact ⟨s, coreTurn_idle s hbusy⟩
  | some i =>
    rw [hp] at hbusy hwf
    rw [coreTurn_pending s hbusy hp]
    exact exec_next_of_wf hwf s

theorem coreTurn_empty_latch (hb : s.status.busy = true) (hp : s.pend = none) :
    coreTurn s = .fault .emptyLatch := by
  simp [coreTurn, hb, hp]

/-- The core's turn comes with its own event, or where no event is left (70_reset_and_hazards.md
R227). -/
theorem step_eq_coreTurn (h : s.inbox = [] ∨ s.inbox.head? = some .core) :
    ∃ rest, step s = coreTurn { s with inbox := rest } := by
  rcases h with hin | hin
  · exact ⟨s.inbox, step_nil s hin⟩
  · obtain ⟨rest, hin⟩ := List.head?_eq_some_iff.mp hin
    exact ⟨rest, step_cons s hin⟩

/-- A well-formed latch is all a step needs, but for an access that overlaps the reset step
(70_reset_and_hazards.md R222). -/
theorem step_next_or_accessInReset (h : s.LatchWf) :
    (∃ t, step s = .next t) ∨
      ∃ a rest, s.inbox = .accessInReset a :: rest ∧ step s = .refused .accessDuringReset := by
  cases hin : s.inbox with
  | nil =>
    rw [step_nil s hin]
    exact .inl (coreTurn_next_of_latchWf h)
  | cons e rest =>
    rw [step_cons s hin]
    cases e with
    | access a => exact .inl ⟨_, rfl⟩
    | core => exact .inl (coreTurn_next_of_latchWf (s := { s with inbox := rest }) h)
    | reset => exact .inl ⟨_, rfl⟩
    | accessInReset a => exact .inr ⟨a, rest, rfl, rfl⟩

/-- Completing a DIVREM with RD = RD2, which no legal word stands for (30_encoding.md R89), is
refused. -/
theorem exec_divrem_aliased (s : State) (r rs1 rs2 : Reg) :
    exec (.divrem r r rs1 rs2) s = .refused (.aliasedPair "DIVREM") :=
  if_pos rfl

end Stops

/-- Settles O52: the invariant's latch clause rules out every stop but the access that overlaps the
reset step, and each of the model's other two stops is met outside it. -/
theorem whereTheMachineStops : Obligations.WhereTheMachineStops := by
  refine ⟨fun s hi => ?_, fun s hb hp hin => ?_, exec_divrem_aliased⟩
  · obtain ⟨-, hlatch, -, -⟩ := hi
    exact step_next_or_accessInReset hlatch
  · obtain ⟨rest, hstep⟩ := step_eq_coreTurn hin
    exact hstep.trans (coreTurn_empty_latch (s := { s with inbox := rest }) hb hp)

end Sys2Proof.Machine

/-! ## Reset and hazards (70_reset_and_hazards.md)

PROOFS. What a reset leaves, that every step takes the oldest event from the inbox, and that a run whose
events are all met leaves the block idle; the statements of 70_reset_and_hazards.md follow. -/

namespace Sys2Proof.Machine

/-! ### Reset (R220, R221, R232) -/

theorem State.val_resetStep (s : State) (r : Reg) : s.resetStep.val r = 0 := by
  simp [State.val]

theorem State.cleanEntry_resetStep (s : State) : s.resetStep.CleanEntry :=
  ⟨rfl, rfl, rfl, rfl, rfl, rfl, rfl, rfl⟩

/-- A reset leaves the reset state of any configuration as it is. -/
theorem State.resetStep_resetOf (cfg : Config) :
    (State.resetOf cfg).resetStep = State.resetOf cfg := rfl

/-- Settles O51: the reset state of a configuration is what a reset step leaves of it. -/
theorem resetMeetsTheInvariant : Obligations.ResetMeetsTheInvariant := by
  refine ⟨fun cfg => ?_, rfl⟩
  rw [← State.resetStep_resetOf cfg]
  exact ⟨State.inv_resetStep _, State.cleanEntry_resetStep _⟩

/-- Settles O2: the reset step fills the registers with zero words and clears BUSY, so the core has
nothing to complete. -/
theorem resetRestoresEverythingAndAbandons : Obligations.ResetRestoresEverythingAndAbandons := by
  intro s rest hin
  refine ⟨_, step_cons s hin, fun r => ⟨State.val_resetStep _ r, ?_⟩, rfl,
    State.cleanEntry_resetStep _, rfl, rfl, rfl, coreTurn_idle _ rfl⟩
  rw [State.reg_resetStep, List.length_replicate]

/-! ### A step and the inbox (20_memory.md R62) -/

section Inbox
variable {s t : State}

theorem State.poke_inbox (s : State) (v : Word) (tg : Target) : (s.poke v tg).inbox = s.inbox :=
  congrArg (·.inbox) (s.poke_withInbox v tg s.inbox :)

theorem State.access_inbox (s : State) (a : Access) : (s.access a).inbox = s.inbox := by
  rcases s.access_cases a with ⟨rep, he⟩ | ⟨v, -, -, -, he⟩
  · rw [he]
  · rw [he]; exact s.poke_inbox v _

theorem exec_inbox {i : Instr} (h : exec i s = .next t) : t.inbox = s.inbox := by
  obtain ⟨-, -, -, hin, -⟩ := exec_sameRest h
  exact hin

/-- Every step takes the oldest event from the inbox and puts none into it. -/
theorem step_inbox (h : step s = .next t) : t.inbox = s.inbox.tail := by
  have htail {rest : List Event} (hin : s.inbox = .core :: rest ∨ s.inbox = [] ∧ rest = []) :
      rest = s.inbox.tail := by
    rcases hin with hin | ⟨hin, rfl⟩ <;> rw [hin] <;> rfl
  rcases step_cases s h with ⟨a, rest, hin, rfl⟩ | ⟨rest, hin, rfl⟩ | ⟨i, rest, hin, -, -, he⟩ |
    ⟨rest, hin, -, rfl⟩
  · rw [State.access_inbox, hin]; rfl
  · rw [State.resetStep_inbox, hin]; rfl
  · exact (exec_inbox he).trans (htail hin)
  · exact htail hin

/-- With no event left it is the core's turn, and the block is idle after it (R227). -/
theorem step_idle_of_inbox_nil (h : step s = .next t) (hin : s.inbox = []) :
    t.status.busy = false := by
  rcases step_cases s h with ⟨a, rest, hcons, -⟩ | ⟨rest, hcons, -⟩ | ⟨i, rest, -, -, -, he⟩ |
    ⟨rest, -, hb, rfl⟩
  · rw [hin] at hcons; cases hcons
  · rw [hin] at hcons; cases hcons
  · exact (exec_idle he).2
  · exact hb

/-- Where no access overlaps a reset, every state that meets the invariant has a next one (R222). -/
theorem exists_step_of_no_overlap (hi : s.Inv) (hno : ∀ a, Event.accessInReset a ∉ s.inbox) :
    ∃ t, step s = .next t := by
  obtain ⟨-, hlatch, -, -⟩ := hi
  rcases step_next_or_accessInReset hlatch with h | ⟨a, rest, hin, -⟩
  · exact h
  · exact absurd (hin ▸ List.mem_cons_self) (hno a)

end Inbox

/-! ### A run to its end (R227, R231) -/

section RunToEnd
variable {s t : State}

theorem runSteps_succ_of_step (n : Nat) (h : step s = .next t) :
    runSteps (n + 1) s = runSteps n t := by
  rw [runSteps, h]

theorem exists_step_of_runSteps_succ {n : Nat} (h : runSteps (n + 1) s = .next t) :
    ∃ u, step s = .next u ∧ runSteps n u = .next t := by
  rw [runSteps] at h
  cases hs : step s with
  | next u => rw [hs] at h; exact ⟨u, rfl, h⟩
  | fault f => rw [hs] at h; cases h
  | refused r => rw [hs] at h; cases h

theorem runSteps_inv {n : Nat} (hi : s.Inv) (h : runSteps n s = .next t) : t.Inv := by
  induction n generalizing s with
  | zero => cases h; exact hi
  | succ n ih =>
    obtain ⟨u, hu, h⟩ := exists_step_of_runSteps_succ h
    exact ih (everyStepKeepsTheInvariant s u hi hu) h

/-- One step for each event and one more meet every event and leave the block idle: the last step is
the core's turn. -/
theorem runSteps_inbox_length_succ (hi : s.Inv) (hno : ∀ a, Event.accessInReset a ∉ s.inbox) :
    ∃ t, runSteps (s.inbox.length + 1) s = .next t ∧ t.inbox = [] ∧ t.status.busy = false := by
  induction hin : s.inbox generalizing s with
  | nil =>
    obtain ⟨t, ht⟩ := exists_step_of_no_overlap hi hno
    have htail := step_inbox ht
    rw [hin] at htail
    exact ⟨t, runSteps_succ_of_step 0 ht, htail, step_idle_of_inbox_nil ht hin⟩
  | cons e rest ih =>
    obtain ⟨u, hu⟩ := exists_step_of_no_overlap hi hno
    have htail := step_inbox hu
    have hno' : ∀ a, Event.accessInReset a ∉ u.inbox := fun a ha =>
      hno a (List.mem_of_mem_tail (htail ▸ ha))
    rw [hin] at htail
    obtain ⟨t, hrun, hdone⟩ := ih (everyStepKeepsTheInvariant s u hi hu) hno' htail
    exact ⟨t, (runSteps_succ_of_step _ hu).trans hrun, hdone⟩

theorem State.runOver_of_inbox_nil (hin : t.inbox = []) (hb : t.status.busy = false) :
    t.RunOver :=
  ⟨by rw [hin]; rfl, hb⟩

/-- A run that is over takes no further step. -/
theorem runToEnd_of_runOver (n : Nat) (h : s.RunOver) : runToEnd n s = .next s := by
  cases n with
  | zero => rfl
  | succ n => exact if_pos h

/-- A run that can take all its steps reaches its end or its bound. -/
theorem exists_runToEnd {n : Nat} (h : runSteps n s = .next t) : ∃ u, runToEnd n s = .next u := by
  induction n generalizing s with
  | zero => exact ⟨s, rfl⟩
  | succ n ih =>
    by_cases ho : s.RunOver
    · exact ⟨s, runToEnd_of_runOver _ ho⟩
    · obtain ⟨v, hv, h⟩ := exists_step_of_runSteps_succ h
      rw [runToEnd, if_neg ho, hv]
      exact ih h

/-- A run whose steps reach a state in which it is over ends in one, the first there is. -/
theorem runToEnd_first {n : Nat} (h : runSteps n s = .next t) (ho : t.RunOver) :
    ∃ u m, runToEnd n s = .next u ∧ u.RunOver ∧ m ≤ n ∧ runSteps m s = .next u ∧
      ∀ k v, k < m → runSteps k s = .next v → ¬v.RunOver := by
  obtain ⟨u, hu⟩ := exists_runToEnd h
  obtain ⟨m, hm, hrun, hend, hfirst⟩ := runToEnd_cases n s hu
  refine ⟨u, m, hu, ?_, hm, hrun, hfirst⟩
  rcases hend with hover | rfl
  · exact hover
  · rw [h] at hrun; cases hrun; exact ho

/-- Where no host access is left and BUSY = 0, any step but a reset is an idle core's turn. -/
theorem step_final_of_runOver (ho : s.RunOver) (h : step s = .next t) (hr : ¬s.Resets) :
    t.final = s.final := by
  obtain ⟨hhost, hb⟩ := ho
  cases stepEffect h with
  | reset hr' => exact absurd hr' hr
  | completion i rest hc => rw [hc.1] at hb; cases hb
  | hostWrite off v u hw =>
    obtain ⟨rest, hin⟩ := List.head?_eq_some_iff.mp hw
    rw [hin] at hhost
    cases hhost
  | quiet ht =>
    obtain ⟨hx, harg, hst, -, -⟩ := ht
    rw [State.final, hx, harg, hst]; rfl

end RunToEnd

/-- Settles O59: one step for each event and one more reach a state in which the run is over, so there
is a first such state, and the invariant holds in both. -/
theorem everyRunEndsIdle : Obligations.EveryRunEndsIdle := by
  refine ⟨fun s hi hno => ?_, fun s ho =>
    ⟨fun n => runToEnd_of_runOver n ho, fun t h hr => step_final_of_runOver ho h hr⟩⟩
  obtain ⟨t, hrun, hin, hb⟩ := runSteps_inbox_length_succ hi hno
  have hover := State.runOver_of_inbox_nil hin hb
  obtain ⟨u, m, hend, hover', hm, hrun', hfirst⟩ := runToEnd_first hrun hover
  exact ⟨⟨u, m, hend, hover', runSteps_inv hi hrun', hm, hrun', hfirst⟩,
    t, hrun, hin, hover, runSteps_inv hi hrun⟩

end Sys2Proof.Machine

/-! ## The encoder and Decode are inverse (30_encoding.md R85, R90, R96)

PROOFS. The word of the command a row makes, field by field; the other direction of the round trip
follows from the accepting answer's conditions. -/

namespace Sys2Proof.Machine

/-- The word of a row's command holds the registers of the fields the row uses and 0 in the others
(R84, R87, R96). -/
theorem encode_build : ∀ row ∈ opMap, ∀ rd rs1 rs2 rd2 : Reg,
    encode (row.build rd rs1 rs2 rd2) =
      wordOfFields row.opc (if row.usesRd then fieldOfReg rd else 0)
        (if row.usesRs1 then fieldOfReg rs1 else 0) (if row.usesRs2 then fieldOfReg rs2 else 0)
        (if row.usesRd2 then fieldOfReg rd2 else 0) := by
  intro row hrow rd rs1 rs2 rd2
  fin_cases hrow <;> rfl

/-- A field that passes R87 and R88 is 0 if unused, and the field of the register it names if
used. -/
theorem fieldOfReg_regOfField_of_used {used : Bool} {f : BitVec 4}
    (hun : (!used && f != 0) = false) (hlt : f.toNat < 8) :
    (if used then fieldOfReg (regOfField f) else 0) = f := by
  cases used with
  | false => exact (by simpa using hun : f = 0).symm
  | true => exact fieldOfReg_regOfField f hlt

/-- The command a row makes of the fields of a word with its opcode is encoded as that word, where
the word passes ILLFMT and ILLREG. -/
theorem encode_build_fields {row : OpRow} {v : Word} (hrow : row ∈ opMap)
    (hopc : row.opc = opcField v) (hres : reservedField v = 0) (hun : ¬UnusedFieldNonzero v)
    (hreg : ¬FieldTooLarge v) :
    encode (row.build (regOfField (rdField v)) (regOfField (rs1Field v)) (regOfField (rs2Field v))
      (regOfField (rd2Field v))) = v := by
  have hunused : unusedFieldSet row v = false := by
    rwa [← Bool.not_eq_true, unusedFieldSet_iff hrow hopc]
  simp only [unusedFieldSet, Bool.or_eq_false_iff] at hunused
  obtain ⟨⟨⟨hrd, hrs1⟩, hrs2⟩, hrd2⟩ := hunused
  simp only [FieldTooLarge, not_or, not_le] at hreg
  obtain ⟨lrd, lrs1, lrs2, lrd2⟩ := hreg
  rw [encode_build row hrow, fieldOfReg_regOfField_of_used hrd lrd,
    fieldOfReg_regOfField_of_used hrs1 lrs1, fieldOfReg_regOfField_of_used hrs2 lrs2,
    fieldOfReg_regOfField_of_used hrd2 lrd2, hopc, wordOfFields_fields v hres]

/-- Settles O4: the accepting answer has the fields of v pass every check, so its row's command is
encoded as v. -/
theorem acceptedWordIsTheEncoding : Obligations.AcceptedWordIsTheEncoding := by
  intro v i h
  refine ⟨?_, wf_of_decode_accept h⟩
  cases decode_eq_iff.mp h with
  | accept row hrow hopc hres hun hreg _ => exact encode_build_fields hrow hopc hres hun hreg

/-- Settles O3: the word's fields are those of its row, and each passes its check. -/
theorem decodeOfEncodeIsIdentity : Obligations.DecodeOfEncodeIsIdentity :=
  decode_encode

/-- Settles O7: the accepted words are the encodings of their commands, and each rejected word fails
the check of its answer. -/
theorem specWordsDecode : Obligations.SpecWordsDecode := by
  refine ⟨decode_encode (.add 1 2 3) rfl, decode_encode (.mul 7 6 5) rfl,
    decode_encode (.divrem 3 4 1 2) rfl, decode_encode (.pows 3 1) rfl,
    decode_encode (.cmp 5 6) rfl, decode_encode (.clr 5) rfl, ?_, ?_, ?_, ?_⟩
  · exact decode_of_not_mem (by decide)
  · exact (DecodeAnswer.illfmt (by decide) (.inr (by decide))).decode_eq
  · exact (DecodeAnswer.illreg (by decide) (by decide) (by decide) (by decide)).decode_eq
  · exact decode_divrem_aliased 4 1 2

end Sys2Proof.Machine
